-- ==== Sys2Proof/Word.lean ====
section
/-! DEFINITION. The widths of the block's values (`00_scope.md` R6, R10): bytes, byte lists, the command word,
door ids and command ids. Every value is unsigned (R9). -/

namespace Sys2Proof

/-- `u8`. -/
abbrev Byte := BitVec 8

/-- A finite list of bytes; the head is the first byte received or sent (R10). -/
abbrev Bytes := List Byte

/-- The 16-bit command word (R51), and every other `u16`. -/
abbrev Word := BitVec 16

/-- A door id, sender or recipient: 4 bits (R6). -/
abbrev DoorId := BitVec 4

/-- A command id: 5 bits (R6; `90_conflicts.md` C5). -/
abbrev CmdId := BitVec 5

/-- The value of one hex digit (R11). -/
abbrev Nibble := BitVec 4

end Sys2Proof
end

