-- ==== Sys2Proof/Config.lean ====
section
/-! DEFINITION. The three parameters of the block (`00_scope.md` R6, `10_state.md` R24): fixed when the block is
built, OPEN in the spec, so a model takes them as arguments. They stand beside the state; no operation changes
them (R33). No value is left free by the spec otherwise, so this file holds no opaque constant. -/

namespace Sys2Proof

/-- The implementation parameters of R6. -/
structure Config where
  /-- `BODY_MAX`: capacity in bytes of the partial-line body buffer. -/
  bodyMax : Nat
  /-- `EVQ_DEPTH`: capacity in events of the output event queue. -/
  evqDepth : Nat
  /-- `TX_PAYLOAD_MAX`: largest payload in bytes that `FRAME_ENCODE` accepts. -/
  txPayloadMax : Nat
deriving DecidableEq, Repr

/-- The constraints R6 puts on the parameters. -/
def Config.ok (c : Config) : Bool :=
  decide (6 ≤ c.bodyMax) && decide (2 ≤ c.evqDepth) && decide (16 ≤ c.txPayloadMax)

/-- The parameters that `95_test_vectors.md` assumes where a vector says nothing else.
DESIGN CHOICE (log entry 1): the spec gives no value. -/
def Config.vectors : Config := { bodyMax := 64, evqDepth := 4, txPayloadMax := 64 }

end Sys2Proof
end

