-- ==== Sys2Proof/Syntax.lean ====
section
/-! DEFINITION. The syntax: the twelve operations of `30_encoding.md` R60 (`opcode_table.json`), their operand
formats (R61), and the offered form of an operation, an operation code with its operands beside it. -/

namespace Sys2Proof

/-- One constructor per row of `opcode_table.json`. An operand has exactly its stated width (R61): the type admits
no wider value. -/
inductive Instr where
  /-- `0x1 CW_DECODE w` (R71) -/
  | cwDecode (w : Word)
  /-- `0x2 CW_ENCODE cid, rcp` (R72) -/
  | cwEncode (cid : CmdId) (rcp : DoorId)
  /-- `0x3 HEX4_RENDER w` (R73) -/
  | hex4Render (w : Word)
  /-- `0x4 HEX4_PARSE d` (R74) -/
  | hex4Parse (d : Bytes)
  /-- `0x5 FRAME_ENCODE cid, rcp, payload` (R75) -/
  | frameEncode (cid : CmdId) (rcp : DoorId) (payload : Bytes)
  /-- `0x6 LINE_CLASSIFY body` (R76) -/
  | lineClassify (body : Bytes)
  /-- `0x7 ALLOW_ENCODE grant, secs` (R97) -/
  | allowEncode (grant : Bool) (secs : Byte)
  /-- `0x8 STATUS_DECODE p` (R98) -/
  | statusDecode (p : Bytes)
  /-- `0x9 TIME_ENCODE year, month, day, wday, hour, minute, second` (R99) -/
  | timeEncode (year : Word) (month day wday hour minute second : Byte)
  /-- `0xA PUSH_BYTE b` (R111) -/
  | pushByte (b : Byte)
  /-- `0xB POP_EVENT` (R119) -/
  | popEvent
  /-- `0xC RESET` (R120) -/
  | reset
deriving DecidableEq, Repr

/-- The nine operations of the Command Codec (R29); the other three are the Frame Reader's (R21). -/
def Instr.isCodec : Instr → Bool
  | .cwDecode _ => true
  | .cwEncode _ _ => true
  | .hex4Render _ => true
  | .hex4Parse _ => true
  | .frameEncode _ _ _ => true
  | .lineClassify _ => true
  | .allowEncode _ _ => true
  | .statusDecode _ => true
  | .timeEncode _ _ _ _ _ _ _ => true
  | .pushByte _ => false
  | .popEvent => false
  | .reset => false

/-- One operand as the environment offers it, of any size: a number or a byte list. -/
inductive Operand where
  | num (n : Nat)
  | bytes (bs : Bytes)
deriving DecidableEq, Repr

/-- An offered operation before it is decoded: the 4-bit operation code `op[3:0]` and the operands "carried beside
the code, not inside it" (`opcode_table.json`). DESIGN CHOICE (log entry 5): the operands are a list in the order of
R60, numbers of any size, so that a wider operand than the format allows can be offered and refused (R128). -/
structure RawOp where
  op : BitVec 4
  operands : List Operand
deriving DecidableEq, Repr

/-- The operand formats of R61. -/
inductive Format where
  | fmtW | fmtCR | fmtCRP | fmtB | fmtA | fmtT | fmtP | fmtN
deriving DecidableEq, Repr

/-- What one operand position of a format carries: a number of a width in bits, or a byte list. -/
inductive OperandType where
  | bits (width : Nat)
  | byteList
deriving DecidableEq, Repr

/-- The operand positions of each format, R61 with the widths of R60. -/
def Format.types : Format → List OperandType
  | .fmtW => [.bits 16]
  | .fmtCR => [.bits 5, .bits 4]
  | .fmtCRP => [.bits 5, .bits 4, .byteList]
  | .fmtB => [.byteList]
  | .fmtA => [.bits 1, .bits 8]
  | .fmtT => [.bits 16, .bits 8, .bits 8, .bits 8, .bits 8, .bits 8, .bits 8]
  | .fmtP => [.bits 8]
  | .fmtN => []

end Sys2Proof
end

