-- ==== Sys2Proof/WellFormed.lean ====
section
/-! DEFINITION. When an operation is well formed: an offered operation has an assigned code, operands of its
format's shape, and no operand wider than its format allows (R60, R61, R62); a `FRAME_ENCODE` payload is no longer
than `TX_PAYLOAD_MAX` (R75). -/

namespace Sys2Proof

/-- The format column of R60's table; `none` for the reserved codes of R62. -/
def formatOf (op : BitVec 4) : Option Format :=
  match op.toNat with
  | 0x1 => some .fmtW
  | 0x2 => some .fmtCR
  | 0x3 => some .fmtW
  | 0x4 => some .fmtB
  | 0x5 => some .fmtCRP
  | 0x6 => some .fmtB
  | 0x7 => some .fmtA
  | 0x8 => some .fmtB
  | 0x9 => some .fmtT
  | 0xA => some .fmtP
  | 0xB => some .fmtN
  | 0xC => some .fmtN
  | _ => none

/-- An operand is of the kind its position asks for. -/
def OperandType.admits : OperandType → Operand → Bool
  | .bits _, .num _ => true
  | .byteList, .bytes _ => true
  | .bits _, .bytes _ => false
  | .byteList, .num _ => false

/-- A number fits its position's width; a byte list has no width to exceed (R61). -/
def OperandType.fits : OperandType → Operand → Bool
  | .bits w, .num n => decide (n < 2 ^ w)
  | .bits _, .bytes _ => true
  | .byteList, .num _ => true
  | .byteList, .bytes _ => true

/-- The operand list has one operand of the right kind for each position of the format. -/
def shapeOk : List OperandType → List Operand → Bool
  | [], [] => true
  | t :: ts, o :: os => t.admits o && shapeOk ts os
  | [], _ :: _ => false
  | _ :: _, [] => false

/-- No operand is wider than its position. -/
def widthsOk (ts : List OperandType) (os : List Operand) : Bool :=
  (ts.zip os).all fun p => p.1.fits p.2

/-- An offered operation that has a meaning as an operation: assigned code, right shape, right widths. -/
def RawOp.wellFormed (o : RawOp) : Bool :=
  match formatOf o.op with
  | none => false
  | some f => shapeOk f.types o.operands && widthsOk f.types o.operands

/-- The one check on an operation that its operands' types do not make: R75's `|payload| <= TX_PAYLOAD_MAX`. -/
def Instr.wellFormed (c : Config) : Instr → Bool
  | .cwDecode _ => true
  | .cwEncode _ _ => true
  | .hex4Render _ => true
  | .hex4Parse _ => true
  | .frameEncode _ _ payload => decide (payload.length ≤ c.txPayloadMax)
  | .lineClassify _ => true
  | .allowEncode _ _ => true
  | .statusDecode _ => true
  | .timeEncode _ _ _ _ _ _ _ => true
  | .pushByte _ => true
  | .popEvent => true
  | .reset => true

end Sys2Proof
end

