-- ==== Sys2Proof/Decode.lean ====
section
/-! DEFINITION. Decoding an offered operation, total and rejecting by name (R60, R61, R62, R128), and the encoder,
written from the same table. -/

namespace Sys2Proof

/-- Why an offered operation is not an operation (R128, and log entry 5 for the last). -/
inductive DecodeError where
  /-- operation code `0x0`, `0xD`, `0xE` or `0xF` -/
  | reservedOp
  /-- an operand wider than its format allows -/
  | operandWidth
  /-- the operand list has not the shape of the format -/
  | operandFormat
deriving DecidableEq, Repr

/-- FMT-W: one 16-bit word. -/
def readW (mk : Word → Instr) : List Operand → Except DecodeError Instr
  | [.num w] => if w < 2 ^ 16 then .ok (mk (BitVec.ofNat 16 w)) else .error .operandWidth
  | _ => .error .operandFormat

/-- FMT-CR: a 5-bit command id and a 4-bit door id. -/
def readCR (mk : CmdId → DoorId → Instr) : List Operand → Except DecodeError Instr
  | [.num c, .num r] =>
    if c < 2 ^ 5 ∧ r < 2 ^ 4 then .ok (mk (BitVec.ofNat 5 c) (BitVec.ofNat 4 r)) else .error .operandWidth
  | _ => .error .operandFormat

/-- FMT-CRP: those two and a byte list. -/
def readCRP (mk : CmdId → DoorId → Bytes → Instr) : List Operand → Except DecodeError Instr
  | [.num c, .num r, .bytes p] =>
    if c < 2 ^ 5 ∧ r < 2 ^ 4 then .ok (mk (BitVec.ofNat 5 c) (BitVec.ofNat 4 r) p) else .error .operandWidth
  | _ => .error .operandFormat

/-- FMT-B: one byte list. -/
def readB (mk : Bytes → Instr) : List Operand → Except DecodeError Instr
  | [.bytes p] => .ok (mk p)
  | _ => .error .operandFormat

/-- FMT-A: one bit and one byte. -/
def readA (mk : Bool → Byte → Instr) : List Operand → Except DecodeError Instr
  | [.num g, .num s] =>
    if g < 2 ^ 1 ∧ s < 2 ^ 8 then .ok (mk (g == 1) (BitVec.ofNat 8 s)) else .error .operandWidth
  | _ => .error .operandFormat

/-- FMT-T: one 16-bit year and six bytes. -/
def readT (mk : Word → Byte → Byte → Byte → Byte → Byte → Byte → Instr) :
    List Operand → Except DecodeError Instr
  | [.num y, .num mo, .num d, .num wd, .num h, .num mi, .num s] =>
    if y < 2 ^ 16 ∧ mo < 2 ^ 8 ∧ d < 2 ^ 8 ∧ wd < 2 ^ 8 ∧ h < 2 ^ 8 ∧ mi < 2 ^ 8 ∧ s < 2 ^ 8 then
      .ok (mk (BitVec.ofNat 16 y) (BitVec.ofNat 8 mo) (BitVec.ofNat 8 d) (BitVec.ofNat 8 wd)
        (BitVec.ofNat 8 h) (BitVec.ofNat 8 mi) (BitVec.ofNat 8 s))
    else .error .operandWidth
  | _ => .error .operandFormat

/-- FMT-P: one byte. -/
def readP (mk : Byte → Instr) : List Operand → Except DecodeError Instr
  | [.num b] => if b < 2 ^ 8 then .ok (mk (BitVec.ofNat 8 b)) else .error .operandWidth
  | _ => .error .operandFormat

/-- FMT-N: nothing. -/
def readN (i : Instr) : List Operand → Except DecodeError Instr
  | [] => .ok i
  | _ => .error .operandFormat

/-- R60's table. Every code outside `0x1` to `0xC` is reserved (R62) and is refused before its operands are looked
at; the shape is checked before the widths (DESIGN CHOICE, log entry 10). -/
def decode (o : RawOp) : Except DecodeError Instr :=
  match o.op.toNat with
  | 0x1 => readW .cwDecode o.operands
  | 0x2 => readCR .cwEncode o.operands
  | 0x3 => readW .hex4Render o.operands
  | 0x4 => readB .hex4Parse o.operands
  | 0x5 => readCRP .frameEncode o.operands
  | 0x6 => readB .lineClassify o.operands
  | 0x7 => readA .allowEncode o.operands
  | 0x8 => readB .statusDecode o.operands
  | 0x9 => readT .timeEncode o.operands
  | 0xA => readP .pushByte o.operands
  | 0xB => readN .popEvent o.operands
  | 0xC => readN .reset o.operands
  | _ => .error .reservedOp

/-- The offered form of an operation: its code and its operands in the order of R60. -/
def encode : Instr → RawOp
  | .cwDecode w => ⟨0x1#4, [.num w.toNat]⟩
  | .cwEncode cid rcp => ⟨0x2#4, [.num cid.toNat, .num rcp.toNat]⟩
  | .hex4Render w => ⟨0x3#4, [.num w.toNat]⟩
  | .hex4Parse d => ⟨0x4#4, [.bytes d]⟩
  | .frameEncode cid rcp payload => ⟨0x5#4, [.num cid.toNat, .num rcp.toNat, .bytes payload]⟩
  | .lineClassify body => ⟨0x6#4, [.bytes body]⟩
  | .allowEncode grant secs => ⟨0x7#4, [.num grant.toNat, .num secs.toNat]⟩
  | .statusDecode p => ⟨0x8#4, [.bytes p]⟩
  | .timeEncode year month day wday hour minute second =>
    ⟨0x9#4, [.num year.toNat, .num month.toNat, .num day.toNat, .num wday.toNat, .num hour.toNat,
      .num minute.toNat, .num second.toNat]⟩
  | .pushByte b => ⟨0xA#4, [.num b.toNat]⟩
  | .popEvent => ⟨0xB#4, []⟩
  | .reset => ⟨0xC#4, []⟩

/-- An operand position whose operand word is all zeros. -/
def OperandType.zero : OperandType → Operand
  | .bits _ => .num 0
  | .byteList => .bytes []

/-- The offered operation that a word of `opcode_table.json` stands for: the code is bits 3:0 (the table's mask is
`0xF`), and the operands, to which the table gives no bits, are zeros and empty lists of the code's format
(log entry 6). -/
def rawOfTableWord (_nbits w : Nat) : RawOp :=
  let op := BitVec.ofNat 4 w
  match formatOf op with
  | none => ⟨op, []⟩
  | some f => ⟨op, f.types.map OperandType.zero⟩

/-- What the decoder reads from a word of `opcode_table.json`. -/
def decodeTableWord (nbits w : Nat) : Option Instr :=
  match decode (rawOfTableWord nbits w) with
  | .ok i => some i
  | .error _ => none

end Sys2Proof
end

