-- ==== Sys2Proof/Machine/State.lean ====
section
/-! DEFINITION. The state of the block: the Frame Reader's triple `(fr_state, body, evq)` (`10_state.md` R13), beside
it the build-time parameters, the operations the environment offers and the output port; events (R18), outputs,
holds and refusals (`60_exceptions.md` R128, R129); the reset state (R30). -/

namespace Sys2Proof.Machine

/-- The states of `fr_state` (R14). -/
inductive FrState where
  /-- at the start of a line -/
  | idle
  /-- the previous byte was a `'c'` at the start of a line -/
  | gotC
  /-- the prefix `c;` has been seen -/
  | inBody
  /-- the current line overflowed `body` -/
  | discard
deriving DecidableEq, Repr

/-- The reasons of a `FRAME_ERROR` event (R18, R58). -/
inductive FrameErrorReason where
  | fieldCount
  | badHex
  | noCr
  | overflow
deriving DecidableEq, Repr

/-- The five kinds of event with their fields (R18; the fifth kind is `90_conflicts.md` C4). A field that a kind does
not have does not exist. -/
inductive Event where
  | ack
  | nack
  | text (word : Word) (payload : Bytes)
  | junk (byte : Byte)
  | frameError (reason : FrameErrorReason)
deriving DecidableEq, Repr

/-- The outputs of `CW_DECODE` (R71). -/
structure CwFields where
  alarm : Bool
  hasRecipient : Bool
  doorId : DoorId
  commandId : CmdId
  word : Word
deriving DecidableEq, Repr

/-- The outputs of `STATUS_DECODE` that exist when `valid = 1` (R98). -/
structure StatusFields where
  value : Word
  locked : Bool
  tamper : Bool
  alarm : Bool
deriving DecidableEq, Repr

/-- The holds of R129. -/
inductive Hold where
  /-- `PUSH_BYTE` with `in_ready = 0` -/
  | pushNotReady
  /-- `POP_EVENT` with `ev_valid = 0` -/
  | popEmpty
deriving DecidableEq, Repr

/-- What an operation puts on its output port. -/
inductive Output where
  /-- `CW_DECODE` -/
  | fields (f : CwFields)
  /-- `CW_ENCODE` -/
  | word (w : Word)
  /-- `HEX4_RENDER`, `FRAME_ENCODE`, `ALLOW_ENCODE`, `TIME_ENCODE` -/
  | bytes (bs : Bytes)
  /-- `HEX4_PARSE` -/
  | parsed (w : Option Word)
  /-- `LINE_CLASSIFY` -/
  | classified (ev : Event)
  /-- `STATUS_DECODE`: `none` is `valid = 0` -/
  | status (f : Option StatusFields)
  /-- `POP_EVENT` -/
  | popped (ev : Event)
  /-- the operation was not enabled and did not happen -/
  | held (h : Hold)
deriving DecidableEq, Repr

/-- The state. `frState`, `body` and `evq` are the block's architectural state (R13); `cfg` is its build-time
parameters (R24), which no step changes (log entry 1); `ops` and `out` are the model's own: the operations the
environment offers, oldest first (log entry 2), and the output port of the operation just performed (log entry 4). The capacities
of R15 and R16 are an invariant, `State.Inv`, not part of the types (log entry 15). -/
structure State where
  /-- the parameters of R6 -/
  cfg : Config
  /-- `fr_state` (R14) -/
  frState : FrState
  /-- `body`, the partial-line buffer (R15) -/
  body : Bytes
  /-- `evq`, the output event queue, oldest first (R16) -/
  evq : List Event
  /-- the offered operations, one taken by each step -/
  ops : List RawOp
  /-- the output port -/
  out : Option Output
deriving DecidableEq, Repr

/-- The reset state of R30 for a block built with the parameters `c`. -/
def State.resetWith (c : Config) : State :=
  { cfg := c, frState := .idle, body := [], evq := [], ops := [], out := none }

/-- The machine right after reset. The parameter values are a DESIGN CHOICE (log entry 1), and so is that nothing is
offered yet (log entry 2). -/
def State.reset : State := State.resetWith Config.vectors

/-- The block never stops, faults or traps on any input (R126): there is no fault, and no definition raises one
(log entry 16). Safe. -/
inductive Fault where
deriving DecidableEq, Repr

/-- The refusals of R128, one of the model's own, and the one every package declares. -/
inductive Refusal where
  /-- Raised by `step` on an operation code of R62. Safe: nothing is claimed of a reserved code. -/
  | reservedOp
  /-- Raised by `step` on an operand wider than its format (R61, R128). Safe: the ports cannot carry one. -/
  | operandWidth
  /-- Raised by `step` on an operand list that has not the shape of the code's format (log entry 5). Safe: no such
  operation exists. -/
  | operandFormat
  /-- Raised by `FRAME_ENCODE` when the payload is longer than `TX_PAYLOAD_MAX` (R75, R128). Safe. -/
  | payloadTooLong
  /-- Raised by `exec` on an instruction that has no meaning yet; none is left. Safe. -/
  | notModelled (mnemonic : String)
deriving DecidableEq, Repr

end Sys2Proof.Machine
end

