-- ==== Sys2Proof/Machine/Operands.lean ====
section
/-! DEFINITION. The forms an operand or a wire field takes: the byte constants (`00_scope.md` R10), hex digits (R11,
R55), numbers written as hex digits, the most significant first (`20_memory.md` R37), and the split at `';'`
(R10). -/

namespace Sys2Proof.Machine

/-- The control byte ACK (R47). -/
abbrev ackByte : Byte := 0x06#8
/-- The control byte NACK (R47). -/
abbrev nackByte : Byte := 0x15#8
/-- `'c'`; this and the next three are ASCII codes, PRESUMED by the spec itself (GK1, log entry 9). -/
abbrev cByte : Byte := 0x63#8
/-- `';'` -/
abbrev semiByte : Byte := 0x3B#8
/-- CR -/
abbrev crByte : Byte := 0x0D#8
/-- LF -/
abbrev lfByte : Byte := 0x0A#8

/-- `hexval` (R11): both cases of a letter digit are accepted, every other byte is none. -/
def hexVal (b : Byte) : Option Nibble :=
  let n := b.toNat
  if 0x30 ≤ n ∧ n ≤ 0x39 then some (BitVec.ofNat 4 (n - 0x30))
  else if 0x41 ≤ n ∧ n ≤ 0x46 then some (BitVec.ofNat 4 (n - 0x41 + 10))
  else if 0x61 ≤ n ∧ n ≤ 0x66 then some (BitVec.ofNat 4 (n - 0x61 + 10))
  else none

/-- `hexchar` (R11): `'0'` to `'9'`, then uppercase `'A'` to `'F'`. -/
def hexChar (n : Nibble) : Byte :=
  if n.toNat < 10 then BitVec.ofNat 8 (0x30 + n.toNat) else BitVec.ofNat 8 (0x41 + (n.toNat - 10))

/-- `hex2` (R99): a byte as two digits. -/
def hex2 (v : Byte) : Bytes :=
  [hexChar (v.extractLsb' 4 4), hexChar (v.extractLsb' 0 4)]

/-- The body of `HEX4_RENDER` (R73): a word as four digits. -/
def hex4 (w : Word) : Bytes :=
  [hexChar (w.extractLsb' 12 4), hexChar (w.extractLsb' 8 4),
   hexChar (w.extractLsb' 4 4), hexChar (w.extractLsb' 0 4)]

/-- The values of a list of digits, none if one byte of it is no hex digit. -/
def hexDigits : Bytes → Option (List Nibble)
  | [] => some []
  | b :: bs =>
    match hexVal b, hexDigits bs with
    | some v, some vs => some (v :: vs)
    | _, _ => none

/-- The number that digits spell, the most significant first, in 16 bits (R98). -/
def hexNumber (vs : List Nibble) : Word :=
  vs.foldl (fun acc v => (acc <<< 4) ||| v.setWidth 16) 0#16

/-- The body of `HEX4_PARSE` (R74): exactly four hex digits. -/
def parseHex4 (d : Bytes) : Option Word :=
  match hexDigits d with
  | some [a, b, c, e] =>
    some ((a.setWidth 16 <<< 12) ||| (b.setWidth 16 <<< 8) ||| (c.setWidth 16 <<< 4) ||| e.setWidth 16)
  | _ => none

/-- `split(xs, ';')` (R10): one more part than there are `';'` bytes. -/
def splitSemi : Bytes → List Bytes
  | [] => [[]]
  | b :: bs =>
    if b = semiByte then [] :: splitSemi bs
    else
      match splitSemi bs with
      | [] => [[b]]
      | p :: ps => (b :: p) :: ps

end Sys2Proof.Machine
end

