-- ==== Sys2Proof/Machine/Flags.lean ====
section
/-! DEFINITION. The block stores no flags (`10_state.md` R23). Here stands every bit and code it derives: the fields
of the command word (R51, R52), the bits of a status payload (R98), the derived signals `in_ready` and `ev_valid`
(R19, R20), and the event output ports with their numeric codes (R27, R57, R58, R59). -/

namespace Sys2Proof.Machine

/-- The unpacker of R71, field by field as R52 assembles them. Bits 9 and 11 to 15 reach no field but the word itself
(R53); `commandId` keeps bit 4 (`90_conflicts.md` C1). -/
def cwFields (w : Word) : CwFields :=
  { alarm := w.getLsbD 10
    hasRecipient := w.getLsbD 4
    doorId := w.extractLsb' 5 4
    commandId := w.extractLsb' 0 5
    word := w }

/-- The status bitmask of R98: bit 0 locked, bit 1 tamper, bit 2 alarm. -/
def statusFields (v : Word) : StatusFields :=
  { value := v, locked := v.getLsbD 0, tamper := v.getLsbD 1, alarm := v.getLsbD 2 }

/-- `in_ready` (R19): two free slots in the queue, written without a subtraction (log entry 12). -/
def State.inReady (s : State) : Bool := decide (s.evq.length + 2 ≤ s.cfg.evqDepth)

/-- `ev_valid` (R20). -/
def State.evValid (s : State) : Bool := decide (1 ≤ s.evq.length)

/-- `fr_state` codes (R59). -/
def FrState.code : FrState → BitVec 2
  | .idle => 0#2
  | .gotC => 1#2
  | .inBody => 2#2
  | .discard => 3#2

/-- `ev_reason` codes (R58). -/
def FrameErrorReason.code : FrameErrorReason → BitVec 2
  | .fieldCount => 0#2
  | .badHex => 1#2
  | .noCr => 2#2
  | .overflow => 3#2

/-- `ev_kind` codes (R57); 5, 6 and 7 are reserved and never produced. -/
def Event.kindCode : Event → BitVec 3
  | .ack => 0#3
  | .nack => 1#3
  | .text _ _ => 2#3
  | .junk _ => 3#3
  | .frameError _ => 4#3

/-- The byte a `JUNK` event carries. -/
def Event.byte? : Event → Option Byte
  | .junk b => some b
  | _ => none

/-- The word a `TEXT` event carries. -/
def Event.word? : Event → Option Word
  | .text w _ => some w
  | _ => none

/-- The payload a `TEXT` event carries. -/
def Event.payload? : Event → Option Bytes
  | .text _ p => some p
  | _ => none

/-- The reason a `FRAME_ERROR` event carries. -/
def Event.reason? : Event → Option FrameErrorReason
  | .frameError r => some r
  | _ => none

/-- The event output ports (R27), all presenting the head of the queue; `none` is a port without a value: the queue is
empty (R20) or the head's kind has no such field (R18). Reading one changes nothing (R41). -/
def State.evKind (s : State) : Option (BitVec 3) := s.evq.head?.map Event.kindCode
/-- `ev_byte` (R27). -/
def State.evByte (s : State) : Option Byte := s.evq.head?.bind Event.byte?
/-- `ev_word` (R27). -/
def State.evWord (s : State) : Option Word := s.evq.head?.bind Event.word?
/-- `ev_reason` (R27). -/
def State.evReason (s : State) : Option (BitVec 2) := (s.evq.head?.bind Event.reason?).map FrameErrorReason.code
/-- `ev_plen` (R27): the payload length. -/
def State.evPlen (s : State) : Option Nat := (s.evq.head?.bind Event.payload?).map List.length
/-- `ev_payload` (R27). -/
def State.evPayload (s : State) : Option Bytes := s.evq.head?.bind Event.payload?

end Sys2Proof.Machine
end

