-- ==== Sys2Proof/Machine/Ops.lean ====
section
/-! DEFINITION. The shared operations: answering on the output port, holding, emitting an event, classifying a line,
building a frame, and the four case rules of `PUSH_BYTE`. The block takes no exception and returns from none
(`60_exceptions.md` R134, R135): an error is an event in the queue like any other, so emitting an event is the one
operation that reports errors. -/

namespace Sys2Proof.Machine

/-- A codec operation: its output appears in the same step (R146), and nothing else changes (R21, R41). -/
def State.answer (s : State) (o : Output) : Host.Outcome State Fault Refusal :=
  .next { s with out := some o }

/-- `hold` (R10, R129): the operation does not happen and no state of the block changes; the output port names the
hold, and the offer is spent, so the agent must make it again (R111; log entry 3). -/
def State.hold (s : State) (h : Hold) : Host.Outcome State Fault Refusal :=
  .next { s with out := some (.held h) }

/-- The state an outcome leads to; an operation that is refused did not happen. -/
def nextOr (s : State) : Host.Outcome State Fault Refusal → State
  | .next t => t
  | .fault _ => s
  | .refused _ => s

/-- `emit(ev)` (R10): append at the tail of the queue (R16). -/
def State.emit (s : State) (ev : Event) : State := { s with evq := s.evq ++ [ev] }

/-- The packer of R72: a zero recipient adds neither the door field nor bit 4; an id with bit 4 keeps it
(`90_conflicts.md` C2). -/
def cwPack (cid : CmdId) (rcp : DoorId) : Word :=
  if rcp ≠ 0#4 then (rcp.setWidth 16 <<< 5) ||| 0x0010#16 ||| cid.setWidth 16 else cid.setWidth 16

/-- The frame text of R48 and R75: `c;XXXX;`, the payload verbatim, CR LF. -/
def frameBytes (cid : CmdId) (rcp : DoorId) (payload : Bytes) : Bytes :=
  [cByte, semiByte] ++ hex4 (cwPack cid rcp) ++ [semiByte] ++ payload ++ [crByte, lfByte]

/-- The classifier of R76, its checks in the order `NO_CR`, `FIELD_COUNT`, `BAD_HEX` (R130). -/
def classify (body : Bytes) : Event :=
  if body.getLast? ≠ some crByte then .frameError .noCr
  else
    match splitSemi body.dropLast with
    | [field, payload] =>
      match parseHex4 field with
      | some w => .text w payload
      | none => .frameError .badHex
    | _ => .frameError .fieldCount

/-- The payload of R97: two digits for a grant, empty for a deny. -/
def allowPayload (grant : Bool) (secs : Byte) : Bytes :=
  if grant then hex2 secs else []

/-- The reader of R98: 1 to 4 hex digits, anything else is `valid = 0`. -/
def statusOf (p : Bytes) : Option StatusFields :=
  if p.length < 1 ∨ 4 < p.length then none
  else
    match hexDigits p with
    | some vs => some (statusFields (hexNumber vs))
    | none => none

/-- The payload of R99; no field is range-checked. -/
def timePayload (year : Word) (month day wday hour minute second : Byte) : Bytes :=
  hex4 year ++ hex2 month ++ hex2 day ++ hex2 wday ++ hex2 hour ++ hex2 minute ++ hex2 second

/-- `IDLE_STEP` (R113), the start of a line. -/
def idleStep (b : Byte) (s : State) : State :=
  if b = ackByte then s.emit .ack
  else if b = nackByte then s.emit .nack
  else if b = cByte then { s with frState := .gotC }
  else s.emit (.junk b)

/-- `GOT_C_STEP` (R114), the byte after a line-initial `'c'`. -/
def gotCStep (b : Byte) (s : State) : State :=
  if b = semiByte then { s with frState := .inBody }
  else idleStep b { s.emit (.junk cByte) with frState := .idle }

/-- `IN_BODY_STEP` (R115, R116). -/
def inBodyStep (b : Byte) (s : State) : State :=
  if b = lfByte then { s.emit (classify s.body) with body := [], frState := .idle }
  else if s.body.length < s.cfg.bodyMax then { s with body := s.body ++ [b] }
  else { s.emit (.frameError .overflow) with body := [], frState := .discard }

/-- `DISCARD_STEP` (R117), the rest of an overflowed line. -/
def discardStep (b : Byte) (s : State) : State :=
  if b = lfByte then { s with frState := .idle } else s

/-- The case analysis of an enabled `PUSH_BYTE` (R111). -/
def takeByte (b : Byte) (s : State) : State :=
  match s.frState with
  | .idle => idleStep b s
  | .gotC => gotCStep b s
  | .inBody => inBodyStep b s
  | .discard => discardStep b s

/-- The events that taking a byte emits, in order: what it appends to the queue. -/
def emittedBy (b : Byte) (s : State) : List Event :=
  (takeByte b s).evq.drop s.evq.length

/-- The effect of `RESET` on the Frame Reader (R120); the parameters stay (R33). -/
def State.clear (s : State) : State := { s with frState := .idle, body := [], evq := [] }

end Sys2Proof.Machine
end

