-- ==== Sys2Proof/Machine/Codec.lean ====
section
/-! DEFINITION. The meanings of the Command Codec's command-word and frame-text operations (`41_command_codec.md`). -/

namespace Sys2Proof.Machine

/-- `CW_DECODE` (R71); total on all words. -/
def execCwDecode (w : Word) (s : State) : Host.Outcome State Fault Refusal :=
  s.answer (.fields (cwFields w))

/-- `CW_ENCODE` (R72). -/
def execCwEncode (cid : CmdId) (rcp : DoorId) (s : State) : Host.Outcome State Fault Refusal :=
  s.answer (.word (cwPack cid rcp))

/-- `HEX4_RENDER` (R73). -/
def execHex4Render (w : Word) (s : State) : Host.Outcome State Fault Refusal :=
  s.answer (.bytes (hex4 w))

/-- `HEX4_PARSE` (R74). -/
def execHex4Parse (d : Bytes) (s : State) : Host.Outcome State Fault Refusal :=
  s.answer (.parsed (parseHex4 d))

/-- `FRAME_ENCODE` (R75): refused when the payload is longer than `TX_PAYLOAD_MAX` (R128). -/
def execFrameEncode (cid : CmdId) (rcp : DoorId) (payload : Bytes) (s : State) : Host.Outcome State Fault Refusal :=
  if payload.length ≤ s.cfg.txPayloadMax then s.answer (.bytes (frameBytes cid rcp payload))
  else .refused .payloadTooLong

/-- `LINE_CLASSIFY` (R76). -/
def execLineClassify (body : Bytes) (s : State) : Host.Outcome State Fault Refusal :=
  s.answer (.classified (classify body))

end Sys2Proof.Machine
end

