-- ==== Sys2Proof/Machine/Payload.lean ====
section
/-! DEFINITION. The meanings of the payload field codec's operations (`42_payload_codec.md`). -/

namespace Sys2Proof.Machine

/-- `ALLOW_ENCODE` (R97). -/
def execAllowEncode (grant : Bool) (secs : Byte) (s : State) : Host.Outcome State Fault Refusal :=
  s.answer (.bytes (allowPayload grant secs))

/-- `STATUS_DECODE` (R98). -/
def execStatusDecode (p : Bytes) (s : State) : Host.Outcome State Fault Refusal :=
  s.answer (.status (statusOf p))

/-- `TIME_ENCODE` (R99). -/
def execTimeEncode (year : Word) (month day wday hour minute second : Byte) (s : State) :
    Host.Outcome State Fault Refusal :=
  s.answer (.bytes (timePayload year month day wday hour minute second))

end Sys2Proof.Machine
end

