-- ==== Sys2Proof/Machine/Reader.lean ====
section
/-! DEFINITION. The meanings of the Frame Reader's operations (`43_frame_reader.md`). -/

namespace Sys2Proof.Machine

/-- `PUSH_BYTE` (R111): enabled when `in_ready`, otherwise it holds. It has no output of its own; what it emits goes
to the queue. -/
def execPushByte (b : Byte) (s : State) : Host.Outcome State Fault Refusal :=
  if s.inReady then .next { takeByte b s with out := none } else s.hold .pushNotReady

/-- `POP_EVENT` (R119): the oldest event, or a hold on an empty queue. -/
def execPopEvent (s : State) : Host.Outcome State Fault Refusal :=
  match s.evq with
  | [] => s.hold .popEmpty
  | ev :: rest => .next { s with evq := rest, out := some (.popped ev) }

/-- `RESET` (R120): always enabled. -/
def execReset (s : State) : Host.Outcome State Fault Refusal :=
  .next { s.clear with out := none }

end Sys2Proof.Machine
end

