-- ==== Sys2Proof/Machine/Dispatch.lean ====
section
/-! DEFINITION. The dispatch: one arm per operation of `opcode_table.json`, each a call of its meaning. -/

namespace Sys2Proof.Machine

def exec (i : Instr) (s : State) : Host.Outcome State Fault Refusal :=
  match i with
  | .cwDecode w => Sys2Proof.Machine.execCwDecode w s
  | .cwEncode cid rcp => Sys2Proof.Machine.execCwEncode cid rcp s
  | .hex4Render w => Sys2Proof.Machine.execHex4Render w s
  | .hex4Parse d => Sys2Proof.Machine.execHex4Parse d s
  | .frameEncode cid rcp payload => Sys2Proof.Machine.execFrameEncode cid rcp payload s
  | .lineClassify body => Sys2Proof.Machine.execLineClassify body s
  | .allowEncode grant secs => Sys2Proof.Machine.execAllowEncode grant secs s
  | .statusDecode p => Sys2Proof.Machine.execStatusDecode p s
  | .timeEncode year month day wday hour minute second => Sys2Proof.Machine.execTimeEncode year month day wday hour minute second s
  | .pushByte b => Sys2Proof.Machine.execPushByte b s
  | .popEvent => Sys2Proof.Machine.execPopEvent s
  | .reset => Sys2Proof.Machine.execReset s

end Sys2Proof.Machine
end

