-- ==== Sys2Proof/Machine/Step.lean ====
section
/-! DEFINITION. One step: take the oldest offered operation, decode it, perform it. With nothing offered no operation
happens (R121). -/

namespace Sys2Proof.Machine

/-- The refusal that answers an offer the decoder rejects (R128). -/
def refusalOf : DecodeError → Refusal
  | .reservedOp => .reservedOp
  | .operandWidth => .operandWidth
  | .operandFormat => .operandFormat

/-- One atomic operation (R5, R40). With no offer the state stays (R121, R139) and the output port is empty, for no
operation has an output (log entry 7). -/
def step (s : State) : Host.Outcome State Fault Refusal :=
  match s.ops with
  | [] => .next { s with out := none }
  | o :: rest =>
    match decode o with
    | .error e => .refused (refusalOf e)
    | .ok i => exec i { s with ops := rest }

/-- The operation of a table word offered before all others, so that the next step performs it (log entry 6). -/
def State.withFetchWord (s : State) (nbits w : Nat) : State :=
  { s with ops := rawOfTableWord nbits w :: s.ops }

end Sys2Proof.Machine
end

