-- ==== Sys2Proof/Machine/Cycle.lean ====
section
/-! DEFINITION. Operations that coincide in one clock cycle of a realisation (`43_frame_reader.md` R125,
`60_exceptions.md` R132). The step never performs two operations at once; this is the spec's account of a
realisation that does (log entry 11). -/

namespace Sys2Proof.Machine

/-- What the agents ask for in one cycle. -/
structure CycleIn where
  push : Option Byte
  pop : Bool
  reset : Bool
deriving DecidableEq, Repr

/-- The event handed to the consumer in a cycle: the head as it was before the cycle, and none under `RESET`. -/
def cyclePopped (c : CycleIn) (s : State) : Option Event :=
  if c.reset then none else if c.pop then s.evq.head? else none

/-- The state after a cycle, with `in_ready` and `ev_valid` both taken from the state before it: the pop removes an
event that was there, the push appends at the tail, and `RESET` wins over both. -/
def cycle (c : CycleIn) (s : State) : State :=
  if c.reset then s.clear
  else
    let kept := if c.pop then s.evq.tail else s.evq
    match c.push with
    | some b => if s.inReady then { takeByte b s with evq := kept ++ emittedBy b s } else { s with evq := kept }
    | none => { s with evq := kept }

end Sys2Proof.Machine
end

