-- ==== Sys2Proof/Machine/Pseudo.lean ====
section
/-! DEFINITION. The pseudo-operations of `30_encoding.md` R65, each only its expansion. -/

namespace Sys2Proof.Machine

/-- One turn while a `PUSH_STR` or a `POP_ALL` is under way: its own agent goes on with it, or another agent makes an
operation (R125, R143: the agents' single operations interleave). -/
inductive Turn where
  | own
  | other (i : Instr)
deriving DecidableEq, Repr

/-- `PUSH_STR s` among the turns of the other agents: its `PUSH_BYTE`s in order, each of which "holds until
`in_ready`". A byte that is held is offered again at the producer's next turn, and the byte after it only once it is
taken (log entry 3). The operations made, the other agents' among them, and the bytes not taken yet; the expansion is
complete when none is left. -/
def pushStr : List Turn → Bytes → State → List Instr × Bytes
  | [], bs, _ => ([], bs)
  | .other i :: ts, bs, s =>
    let r := pushStr ts bs (nextOr s (exec i s))
    (i :: r.1, r.2)
  | .own :: ts, [], s => pushStr ts [] s
  | .own :: ts, b :: bs, s =>
    let r := pushStr ts (if s.inReady then bs else b :: bs) (nextOr s (exec (.pushByte b) s))
    (.pushByte b :: r.1, r.2)

/-- `POP_ALL` among the turns of the other agents: `POP_EVENT` "repeated while `ev_valid = 1`". At each of its own turns
the consumer tests `ev_valid` as it then is: it pops while there is an event, one that came in meanwhile included, and
is at its end when there is none. The operations made until then, the other agents' among them, and whether the end was
reached. -/
def popAll : List Turn → State → List Instr × Bool
  | [], _ => ([], false)
  | .other i :: ts, s =>
    let r := popAll ts (nextOr s (exec i s))
    (i :: r.1, r.2)
  | .own :: ts, s =>
    if s.evValid then
      let r := popAll ts (nextOr s (exec .popEvent s))
      (.popEvent :: r.1, r.2)
    else ([], true)

/-- `REPLY_GRANT d, secs`; with `d = 0` a broadcast (`90_conflicts.md` C3, R148). -/
def replyGrant (d : DoorId) (secs : Byte) : Instr := .frameEncode 0x00#5 d (allowPayload true secs)

/-- `REPLY_DENY d`. -/
def replyDeny (d : DoorId) : Instr := .frameEncode 0x00#5 d (allowPayload false 0#8)

/-- `HELLO year, …, second`: the heartbeat frame. -/
def hello (year : Word) (month day wday hour minute second : Byte) : Instr :=
  .frameEncode 0x14#5 0#4 (timePayload year month day wday hour minute second)

end Sys2Proof.Machine
end

