-- ==== Sys2Proof/Machine/Scan.lean ====
section
/-! DEFINITION. The reference scan of `43_frame_reader.md` R122: what the source's buffer-scanning description makes of
a whole byte list, and its bounded form, which also reports lines that overflow (R123, last sentence). The recursion
is on a fuel that the length of the input always covers (log entry 14). -/

namespace Sys2Proof.Machine

/-- Cut at the first LF: the bytes before it and the bytes after it; none if there is no LF. -/
def cutAtLf : Bytes → Option (Bytes × Bytes)
  | [] => none
  | b :: bs =>
    if b = lfByte then some ([], bs)
    else
      match cutAtLf bs with
      | some (pre, rest) => some (b :: pre, rest)
      | none => none

/-- `scan` of R122 with fuel, its cases tried in the order written there. -/
def scanFuel : Nat → Bytes → List Event
  | 0, _ => []
  | _ + 1, [] => []
  | n + 1, b :: r =>
    if b = ackByte then .ack :: scanFuel n r
    else if b = nackByte then .nack :: scanFuel n r
    else if b = cByte then
      match r with
      | [] => []
      | d :: r' =>
        if d = semiByte then
          match cutAtLf r' with
          | some (body, rest) => classify body :: scanFuel n rest
          | none => []
        else .junk b :: scanFuel n (d :: r')
    else .junk b :: scanFuel n r

/-- `scan(xs)` (R122). -/
def scan (xs : Bytes) : List Event := scanFuel xs.length xs

/-- The bodies of the text-frame lines of a byte list, a final incomplete one included (R123). -/
def bodiesFuel : Nat → Bytes → List Bytes
  | 0, _ => []
  | _ + 1, [] => []
  | n + 1, b :: r =>
    if b = cByte then
      match r with
      | [] => []
      | d :: r' =>
        if d = semiByte then
          match cutAtLf r' with
          | some (body, rest) => body :: bodiesFuel n rest
          | none => [r']
        else bodiesFuel n (d :: r')
    else bodiesFuel n r

/-- The bodies that R123's hypothesis speaks of. -/
def textBodies (xs : Bytes) : List Bytes := bodiesFuel xs.length xs

/-- The scan of a reader whose body buffer holds `m` bytes: a longer line gives `FRAME_ERROR(OVERFLOW)` and nothing
else (R123), complete or not, since the event is emitted at the first byte that does not fit (R115). -/
def scanMaxFuel (m : Nat) : Nat → Bytes → List Event
  | 0, _ => []
  | _ + 1, [] => []
  | n + 1, b :: r =>
    if b = ackByte then .ack :: scanMaxFuel m n r
    else if b = nackByte then .nack :: scanMaxFuel m n r
    else if b = cByte then
      match r with
      | [] => []
      | d :: r' =>
        if d = semiByte then
          match cutAtLf r' with
          | some (body, rest) =>
            (if body.length ≤ m then classify body else .frameError .overflow) :: scanMaxFuel m n rest
          | none => if r'.length ≤ m then [] else [.frameError .overflow]
        else .junk b :: scanMaxFuel m n (d :: r')
    else .junk b :: scanMaxFuel m n r

/-- The bounded scan of a whole byte list. -/
def scanMax (m : Nat) (xs : Bytes) : List Event := scanMaxFuel m xs.length xs

end Sys2Proof.Machine
end

