-- ==== Sys2Proof/Safety.lean ====
section
/-! DEFINITION. What counts as a legal state (`10_state.md` R6, R7, R17), and runs in the terms claims use: operations
performed one after another, the events popped (`70_reset_and_hazards.md` R145), and a consumer that pops whenever
`in_ready` is false (`43_frame_reader.md` R123). -/

namespace Sys2Proof.Machine

/-- A queued event respects R18's bound on a `TEXT` payload, `BODY_MAX - 6` bytes (R7). -/
def Event.fitsIn (m : Nat) : Event → Bool
  | .text _ p => decide (p.length + 6 ≤ m)
  | _ => true

/-- The invariants of R17, with the parameters legal (R6) and every queued payload within R7's bound. -/
structure State.Inv (s : State) : Prop where
  cfg_ok : s.cfg.ok = true
  body_le : s.body.length ≤ s.cfg.bodyMax
  body_nil : s.frState ≠ .inBody → s.body = []
  evq_le : s.evq.length ≤ s.cfg.evqDepth
  payload_le : ∀ ev ∈ s.evq, ev.fitsIn s.cfg.bodyMax = true

/-- The state after performing operations one after another. -/
def after : List Instr → State → State
  | [], s => s
  | i :: is, s => after is (nextOr s (exec i s))

/-- The event an output port hands to the consumer. -/
def Output.popped? : Output → Option Event
  | .popped ev => some ev
  | _ => none

/-- What an operation puts on its output port, where it completes. -/
def outputOf (i : Instr) (s : State) : Option Output :=
  match exec i s with
  | .next t => t.out
  | .fault _ => none
  | .refused _ => none

/-- The observation of a run: the events popped, in order (R145). -/
def observed : List Instr → State → List Event
  | [], _ => []
  | i :: is, s => ((outputOf i s).bind Output.popped?).toList ++ observed is (nextOr s (exec i s))

/-- The events one operation emits: those of an enabled `PUSH_BYTE`; no other operation emits (R21). -/
def eventsOf (s : State) : Instr → List Event
  | .pushByte b => if s.inReady then emittedBy b s else []
  | .cwDecode _ => []
  | .cwEncode _ _ => []
  | .hex4Render _ => []
  | .hex4Parse _ => []
  | .frameEncode _ _ _ => []
  | .lineClassify _ => []
  | .allowEncode _ _ => []
  | .statusDecode _ => []
  | .timeEncode _ _ _ _ _ _ _ => []
  | .popEvent => []
  | .reset => []

/-- The events emitted during a run, in order. -/
def emitted : List Instr → State → List Event
  | [], _ => []
  | i :: is, s => eventsOf s i ++ emitted is (nextOr s (exec i s))

/-- The byte one operation takes from the producer: that of an enabled `PUSH_BYTE`; a held byte is not taken (R147). -/
def takenBy (s : State) : Instr → Bytes
  | .pushByte b => if s.inReady then [b] else []
  | .cwDecode _ => []
  | .cwEncode _ _ => []
  | .hex4Render _ => []
  | .hex4Parse _ => []
  | .frameEncode _ _ _ => []
  | .lineClassify _ => []
  | .allowEncode _ _ => []
  | .statusDecode _ => []
  | .timeEncode _ _ _ _ _ _ _ => []
  | .popEvent => []
  | .reset => []

/-- The bytes taken during a run, in order. -/
def taken : List Instr → State → Bytes
  | [], _ => []
  | i :: is, s => takenBy s i ++ taken is (nextOr s (exec i s))

/-- The consumer of R123 before one byte: pop (at most `n` times) while `in_ready` is false. The popped events, and
the state then. -/
def popWhileHeld : Nat → State → List Event × State
  | 0, s => ([], s)
  | n + 1, s =>
    if s.inReady then ([], s)
    else
      let r := popWhileHeld n (nextOr s (exec .popEvent s))
      (((outputOf .popEvent s).bind Output.popped?).toList ++ r.1, r.2)

/-- R123's run: push the bytes in order, the consumer popping whenever `in_ready` is false. The events popped, and the
state at the end, whose queue holds the events not popped yet. -/
def feed : Bytes → State → List Event × State
  | [], s => ([], s)
  | b :: bs, s =>
    let p := popWhileHeld s.evq.length s
    let r := feed bs (nextOr p.2 (exec (.pushByte b) p.2))
    (p.1 ++ r.1, r.2)

/-- The events emitted by `feed`: those popped and those still queued (the queue loses none, R42). -/
def feedEvents (xs : Bytes) (s : State) : List Event :=
  (feed xs s).1 ++ (feed xs s).2.evq

/-- The digits the encoders write, `'0'..'9'` and `'A'..'F'` (R11, R55), listed one by one. -/
def upperDigits : Bytes :=
  [0x30#8, 0x31#8, 0x32#8, 0x33#8, 0x34#8, 0x35#8, 0x36#8, 0x37#8, 0x38#8, 0x39#8,
   0x41#8, 0x42#8, 0x43#8, 0x44#8, 0x45#8, 0x46#8]

/-- The letter digits in lowercase, which only the decoders accept (R55). -/
def lowerDigits : Bytes := [0x61#8, 0x62#8, 0x63#8, 0x64#8, 0x65#8, 0x66#8]

/-- A number written as `k` uppercase hex digits, the most significant first (R11). -/
def spell : Nat → Nat → Bytes
  | 0, _ => []
  | k + 1, n => spell k (n / 16) ++ [upperDigits.getD (n % 16) 0#8]

/-- The number that the digit values `vs` spell, the most significant first, without a bound on its size. -/
def spelt (vs : List Nibble) : Nat := vs.foldl (fun acc v => 16 * acc + v.toNat) 0

end Sys2Proof.Machine
end

