-- ==== Sys2Proof/Certificates/Slice0/Obligations.lean ====
section
/-! DEFINITION. The statements for the provers. What the output port shows after `PUSH_BYTE`, `RESET` or a hold, how
operations are offered and that a hold spends its offer are the model's own choices (log entries 2, 3, 4); a statement
of a rule leaves that port open (`∃ o`), and a statement that rests on one of them says so. -/

open Sys2Proof Sys2Proof.Machine

/-! ## Encoding -/

/-- Every operation, with every operand at every value its width admits, survives encoding and decoding
(`30_encoding.md` section 5). -/
def Obligations.DecodeOfEncodeIsTheInstruction : Prop :=
  ∀ i : Instr, decode (encode i) = .ok i

/-- Only one offered form stands for an operation: what decodes is the encoding of what it decodes to
(`30_encoding.md` section 5; the offered form is log entry 5). -/
def Obligations.EncodeOfDecodeIsTheOffer : Prop :=
  ∀ (o : RawOp) (i : Instr), decode o = .ok i → encode i = o

/-- The decoder accepts exactly the offers with an assigned code, the shape of its format and no operand too wide
(`30_encoding.md` section 5; the shape check is log entry 5). -/
def Obligations.DecoderAcceptsExactlyTheFormats : Prop :=
  ∀ o : RawOp, (∃ i, decode o = .ok i) ↔ o.wellFormed = true

/-- R62: the four reserved codes are refused whatever stands beside them, and every other code is an operation. -/
def Obligations.ReservedCodesAreRefused : Prop :=
  (∀ (o : RawOp) (s : State) (rest : List RawOp),
    (o.op = 0x0#4 ∨ o.op = 0xD#4 ∨ o.op = 0xE#4 ∨ o.op = 0xF#4) →
      decode o = .error .reservedOp ∧ (s.ops = o :: rest → step s = .refused .reservedOp)) ∧
  ∀ op : BitVec 4, op ≠ 0x0#4 → op ≠ 0xD#4 → op ≠ 0xE#4 → op ≠ 0xF#4 → ∃ os i, decode ⟨op, os⟩ = .ok i

/-- An operand wider than its position is refused `OPERAND_WIDTH` (`30_encoding.md` section 5 and `60_exceptions.md`
section 2; that the shape is checked first is log entry 10). -/
def Obligations.WideOperandsAreRefused : Prop :=
  ∀ (o : RawOp) (f : Format) (s : State) (rest : List RawOp),
    formatOf o.op = some f → shapeOk f.types o.operands = true → widthsOk f.types o.operands = false →
      decode o = .error .operandWidth ∧ (s.ops = o :: rest → step s = .refused .operandWidth)

/-- Offers written out from R60's table and the programs of `95_test_vectors.md`, and table words with zero operands,
decode to the operations they stand for. -/
def Obligations.WrittenOffersDecode : Prop :=
  decode ⟨0x1#4, [.num 0x04A2]⟩ = .ok (.cwDecode 0x04A2#16) ∧
  decode ⟨0x5#4, [.num 0x00, .num 5, .bytes [0x30#8, 0x33#8]]⟩ = .ok (.frameEncode 0x00#5 5#4 [0x30#8, 0x33#8]) ∧
  decode ⟨0x7#4, [.num 1, .num 0x03]⟩ = .ok (.allowEncode true 0x03#8) ∧
  decode ⟨0x9#4, [.num 0x07EA, .num 0x0B, .num 0x0B, .num 0x03, .num 0x15, .num 0x02, .num 0x00]⟩ =
    .ok (.timeEncode 0x07EA#16 0x0B#8 0x0B#8 0x03#8 0x15#8 0x02#8 0x00#8) ∧
  decode ⟨0xA#4, [.num 0x63]⟩ = .ok (.pushByte 0x63#8) ∧
  decodeTableWord 8 0xB = some .popEvent ∧ decodeTableWord 8 0xC = some .reset ∧ decodeTableWord 8 0xD = none

/-! ## The step -/

/-- A step performs the oldest offered operation, on the state without that offer (log entry 2). -/
def Obligations.StepPerformsTheDecodedOffer : Prop :=
  ∀ (s : State) (o : RawOp) (rest : List RawOp) (i : Instr),
    s.ops = o :: rest → decode o = .ok i → step s = exec i { s with ops := rest }

/-- With nothing offered, any number of steps leaves the partial line, the pending `'c'` and the queue as they are
(`43_frame_reader.md` section 2). That a step without an offer answers a next state is log entry 7, and the list of
offers is log entry 2. -/
def Obligations.AbsentInputKeepsTheState : Prop :=
  ∀ (n : Nat) (s : State), s.ops = [] →
    ∃ t : State, Sys2Proof.core.run n s = .next t ∧ t.frState = s.frState ∧ t.body = s.body ∧ t.evq = s.evq ∧ t.ops = []

/-- The step stops exactly for the reasons of `60_exceptions.md` section 2 and, the model's own, on an operand list that
has not the shape of its code's format (log entry 5). That a wrong shape is named before a wide operand is log
entry 10. -/
def Obligations.StepRefusesExactlyForTheListedReasons : Prop :=
  ∀ (s : State) (r : Refusal), step s = .refused r ↔
    ∃ o rest, s.ops = o :: rest ∧
      ((formatOf o.op = none ∧ r = .reservedOp) ∨
       (∃ f, formatOf o.op = some f ∧ shapeOk f.types o.operands = false ∧ r = .operandFormat) ∨
       (∃ f, formatOf o.op = some f ∧ shapeOk f.types o.operands = true ∧ widthsOk f.types o.operands = false ∧
          r = .operandWidth) ∨
       (∃ cid rcp p, o = encode (.frameEncode cid rcp p) ∧ s.cfg.txPayloadMax < p.length ∧
          r = .payloadTooLong))

/-- An operation that is enabled gives its result, not a hold (`60_exceptions.md` sections 1 and 2). Every operation, a
held one included (log entry 3), answers a next state, but for a `FRAME_ENCODE` whose payload is too long, which is
refused. -/
def Obligations.EveryWellFormedOperationCompletes : Prop :=
  ∀ (i : Instr) (s : State),
    (i.wellFormed s.cfg = true → (∀ b, i = .pushByte b → s.inReady = true) → (i = .popEvent → s.evq ≠ []) →
      ∃ t, exec i s = .next t ∧ ∀ h, t.out ≠ some (.held h)) ∧
    (i.wellFormed s.cfg = true → ∃ t, exec i s = .next t) ∧
    (i.wellFormed s.cfg = false → exec i s = .refused .payloadTooLong)

/-! ## The Command Codec -/

/-- R71, by the shift and mask formulas; nothing but the output port changes. -/
def Obligations.CwDecodeGivesTheFields : Prop :=
  ∀ (w : Word) (s : State),
    exec (.cwDecode w) s = .next { s with out := some (.fields
      { alarm := w.getLsbD 10, hasRecipient := w.getLsbD 4, doorId := ((w >>> 5) &&& 0xF#16).setWidth 4,
        commandId := (w &&& 0x1F#16).setWidth 5, word := w }) }

/-- R72, as numbers. -/
def Obligations.CwEncodePacksTheWord : Prop :=
  ∀ (cid : CmdId) (rcp : DoorId) (s : State),
    exec (.cwEncode cid rcp) s = .next { s with out := some (.word
      (if rcp = 0#4 then BitVec.ofNat 16 cid.toNat
       else BitVec.ofNat 16 ((rcp.toNat <<< 5) ||| (1 <<< 4) ||| cid.toNat))) }

/-- R73: four uppercase digits, the most significant first. -/
def Obligations.Hex4RenderSpellsTheWord : Prop :=
  ∀ (w : Word) (s : State),
    exec (.hex4Render w) s = .next { s with out := some (.bytes (spell 4 w.toNat)) }

/-- R55: the encoder writes the uppercase digits; the decoder reads those and the lowercase letters, with the same
values, and no other byte. -/
def Obligations.HexDigitAlphabet : Prop :=
  (∀ n : Nibble, hexChar n = upperDigits.getD n.toNat 0#8) ∧
  ∀ (b : Byte) (n : Nibble), hexVal b = some n ↔
    (upperDigits.getD n.toNat 0#8 = b ∨ (10 ≤ n.toNat ∧ lowerDigits.getD (n.toNat - 10) 0#8 = b))

/-- R74: a value exactly for four hex digits, and then the number they spell. -/
def Obligations.Hex4ParseReadsFourDigits : Prop :=
  ∀ (d : Bytes) (s : State), ∃ r,
    exec (.hex4Parse d) s = .next { s with out := some (.parsed r) } ∧
    ∀ w : Word, r = some w ↔
      ∃ v0 v1 v2 v3 : Nibble, d.map hexVal = [some v0, some v1, some v2, some v3] ∧
        w.toNat = v0.toNat * 0x1000 + v1.toNat * 0x100 + v2.toNat * 0x10 + v3.toNat

/-- R75: the wire bytes, `9 + |payload|` of them, or the refusal of a payload that is too long. -/
def Obligations.FrameEncodeBuildsTheFrame : Prop :=
  ∀ (cid : CmdId) (rcp : DoorId) (payload : Bytes) (s : State),
    (payload.length ≤ s.cfg.txPayloadMax →
      ∃ w f, outputOf (.cwEncode cid rcp) s = some (.word w) ∧
        exec (.frameEncode cid rcp payload) s = .next { s with out := some (.bytes f) } ∧
        f = [0x63#8, 0x3B#8] ++ spell 4 w.toNat ++ [0x3B#8] ++ payload ++ [0x0D#8, 0x0A#8] ∧
        f.length = 9 + payload.length) ∧
    (s.cfg.txPayloadMax < payload.length → exec (.frameEncode cid rcp payload) s = .refused .payloadTooLong)

/-- R76 with the order of R130, by counting `';'` bytes: the body without its CR has exactly two parts when it holds
exactly one. -/
def Obligations.LineClassifyReportsTheFirstError : Prop :=
  ∀ (body : Bytes) (s : State), ∃ ev,
    exec (.lineClassify body) s = .next { s with out := some (.classified ev) } ∧
    ((¬ ∃ line, body = line ++ [0x0D#8]) → ev = .frameError .noCr) ∧
    (∀ line, body = line ++ [0x0D#8] → line.count 0x3B#8 ≠ 1 → ev = .frameError .fieldCount) ∧
    (∀ field payload, body = field ++ [0x3B#8] ++ payload ++ [0x0D#8] → 0x3B#8 ∉ field → 0x3B#8 ∉ payload →
      (outputOf (.hex4Parse field) s = some (.parsed none) → ev = .frameError .badHex) ∧
      ∀ w, outputOf (.hex4Parse field) s = some (.parsed (some w)) → ev = .text w payload)

/-- R97: two digits for a grant, the empty payload for a deny whatever the seconds. -/
def Obligations.AllowEncodeWritesSeconds : Prop :=
  ∀ (grant : Bool) (secs : Byte) (s : State),
    exec (.allowEncode grant secs) s =
      .next { s with out := some (.bytes (if grant then spell 2 secs.toNat else [])) }

/-- R98: valid exactly for 1 to 4 hex digits; then the number they spell and its three bits. -/
def Obligations.StatusDecodeReadsTheBitmask : Prop :=
  ∀ (p : Bytes) (s : State), ∃ r,
    exec (.statusDecode p) s = .next { s with out := some (.status r) } ∧
    (r.isSome = true ↔ 1 ≤ p.length ∧ p.length ≤ 4 ∧ ∀ c ∈ p, hexVal c ≠ none) ∧
    ∀ f, r = some f →
      (∃ vs : List Nibble, p.map hexVal = vs.map some ∧ f.value.toNat = spelt vs) ∧
      f.locked = f.value.getLsbD 0 ∧ f.tamper = f.value.getLsbD 1 ∧ f.alarm = f.value.getLsbD 2

/-- R99: 16 digits, no field checked. -/
def Obligations.TimeEncodeSpellsTheFields : Prop :=
  ∀ (year : Word) (month day wday hour minute second : Byte) (s : State), ∃ p : Bytes,
    exec (.timeEncode year month day wday hour minute second) s = .next { s with out := some (.bytes p) } ∧
    p = spell 4 year.toNat ++ spell 2 month.toNat ++ spell 2 day.toNat ++ spell 2 wday.toNat ++
      spell 2 hour.toNat ++ spell 2 minute.toNat ++ spell 2 second.toNat ∧
    p.length = 16

/-- R32: a codec operation in two states with the same parameters gives one output, which depends on its operands
alone, and changes nothing but the output port. -/
def Obligations.CodecOutputsDependOnOperandsOnly : Prop :=
  ∀ (i : Instr) (s t : State), i.isCodec = true → s.cfg = t.cfg →
    (∃ o, exec i s = .next { s with out := some o } ∧ exec i t = .next { t with out := some o }) ∨
    (∃ r, exec i s = .refused r ∧ exec i t = .refused r)

/-- R77: the word round trip as far as it holds. -/
def Obligations.WordRoundTrip : Prop :=
  ∀ (cid : CmdId) (rcp : DoorId) (s : State), ∃ w f,
    outputOf (.cwEncode cid rcp) s = some (.word w) ∧ outputOf (.cwDecode w) s = some (.fields f) ∧
    f.alarm = false ∧ f.doorId = rcp ∧
    (rcp ≠ 0#4 → f.hasRecipient = true ∧ f.commandId = cid ||| 0x10#5) ∧
    (rcp = 0#4 → f.hasRecipient = cid.getLsbD 4 ∧ f.commandId = cid) ∧
    (f.commandId = cid ↔ rcp = 0#4 ∨ 16 ≤ cid.toNat) ∧
    f.commandId.setWidth 4 = cid.setWidth 4

/-- The bounds of `41_command_codec.md` section 4 on an encoded word. -/
def Obligations.EncodedWordIsBounded : Prop :=
  ∀ (cid : CmdId) (rcp : DoorId) (s : State), ∃ w,
    outputOf (.cwEncode cid rcp) s = some (.word w) ∧
    (rcp ≠ 0#4 → w.toNat ≤ 0x01FF) ∧ (rcp = 0#4 → w.toNat ≤ 0x001F)

/-- R53: bits 9 and 11 to 15 reach no decoded field but the word, are 0 when written, and do not make a received line
an error. -/
def Obligations.ReservedWordBitsHaveNoEffect : Prop :=
  (∀ (w m : Word) (s : State), m &&& 0xFA00#16 = m → ∃ f g,
    outputOf (.cwDecode w) s = some (.fields f) ∧ outputOf (.cwDecode (w ^^^ m)) s = some (.fields g) ∧
    g = { f with word := w ^^^ m }) ∧
  (∀ (cid : CmdId) (rcp : DoorId) (s : State), ∃ w,
    outputOf (.cwEncode cid rcp) s = some (.word w) ∧ w &&& 0xFA00#16 = 0#16) ∧
  ∀ (w : Word) (payload : Bytes) (s : State), 0x3B#8 ∉ payload →
    outputOf (.lineClassify (spell 4 w.toNat ++ [0x3B#8] ++ payload ++ [0x0D#8])) s =
      some (.classified (.text w payload))

/-- R79: rendering and parsing a word. -/
def Obligations.HexRoundTrip : Prop :=
  (∀ (w : Word) (s : State), ∃ d, outputOf (.hex4Render w) s = some (.bytes d) ∧
    outputOf (.hex4Parse d) s = some (.parsed (some w))) ∧
  (∀ (w v : Word) (s : State), outputOf (.hex4Render w) s = outputOf (.hex4Render v) s → w = v) ∧
  (hexVal 0x42#8 = hexVal 0x62#8 ∧ ∀ (d e : Bytes) (s : State), d.map hexVal = e.map hexVal →
    outputOf (.hex4Parse d) s = outputOf (.hex4Parse e) s) ∧
  ∀ (d : Bytes) (w : Word) (s : State), outputOf (.hex4Parse d) s = some (.parsed (some w)) →
    (outputOf (.hex4Render w) s = some (.bytes d) ↔ ∀ b ∈ d, b ∈ upperDigits)

/-- R78: a frame classified at the receiver, with and without a `';'` in its payload. -/
def Obligations.FrameRoundTrip : Prop :=
  ∀ (cid : CmdId) (rcp : DoorId) (payload : Bytes) (s : State), payload.length ≤ s.cfg.txPayloadMax →
    ∃ w f, outputOf (.cwEncode cid rcp) s = some (.word w) ∧
      outputOf (.frameEncode cid rcp payload) s = some (.bytes f) ∧
      (0x3B#8 ∉ payload → 0x0A#8 ∉ payload →
        outputOf (.lineClassify ((f.drop 2).take (6 + payload.length))) s =
          some (.classified (.text w payload))) ∧
      (0x3B#8 ∈ payload →
        outputOf (.lineClassify ((f.drop 2).take (6 + payload.length))) s =
          some (.classified (.frameError .fieldCount)))

/-- R100: one payload reader serves both directions. -/
def Obligations.StatusOfAllowRoundTrip : Prop :=
  ∀ (v : Byte) (s : State),
    (∃ p f, outputOf (.allowEncode true v) s = some (.bytes p) ∧
      outputOf (.statusDecode p) s = some (.status (some f)) ∧ f.value.toNat = v.toNat) ∧
    (∃ p, outputOf (.allowEncode false v) s = some (.bytes p) ∧
      outputOf (.statusDecode p) s = some (.status none))

/-- R101: what the payload encoders write is digits, and a frame built from it round-trips. -/
def Obligations.EncodedPayloadsAreDigitsAndRoundTrip : Prop :=
  ∀ (i : Instr) (s : State) (p : Bytes) (cid : CmdId) (rcp : DoorId),
    ((∃ g v, i = .allowEncode g v) ∨ (∃ y mo d wd h mi se, i = .timeEncode y mo d wd h mi se)) →
    outputOf i s = some (.bytes p) → s.cfg.ok = true →
      (∀ b ∈ p, b ∈ upperDigits) ∧
      ∃ w f, outputOf (.cwEncode cid rcp) s = some (.word w) ∧
        outputOf (.frameEncode cid rcp p) s = some (.bytes f) ∧
        outputOf (.lineClassify ((f.drop 2).take (6 + p.length))) s = some (.classified (.text w p))

/-- The pseudo-operations of `30_encoding.md` section 6: a grant and a deny to each door, the grant to door 0 being the
broadcast `c;0000;XX` (`70_reset_and_hazards.md` section 3), and the heartbeat frame with its 25 bytes and the word
`0x0014`. -/
def Obligations.RepliesAndHeartbeatOnTheWire : Prop :=
  ∀ (s : State), s.cfg.ok = true →
    (∀ (d : DoorId) (secs : Byte), ∃ w, outputOf (.cwEncode 0#5 d) s = some (.word w) ∧
      outputOf (replyGrant d secs) s = some (.bytes
        ([0x63#8, 0x3B#8] ++ spell 4 w.toNat ++ [0x3B#8] ++ spell 2 secs.toNat ++ [0x0D#8, 0x0A#8]))) ∧
    (∀ secs : Byte, outputOf (replyGrant 0#4 secs) s = some (.bytes
      ([0x63#8, 0x3B#8, 0x30#8, 0x30#8, 0x30#8, 0x30#8, 0x3B#8] ++ spell 2 secs.toNat ++ [0x0D#8, 0x0A#8]))) ∧
    (∀ d : DoorId, ∃ w, outputOf (.cwEncode 0#5 d) s = some (.word w) ∧ outputOf (replyDeny d) s = some (.bytes
      ([0x63#8, 0x3B#8] ++ spell 4 w.toNat ++ [0x3B#8, 0x0D#8, 0x0A#8]))) ∧
    (∀ (y : Word) (mo d wd h mi se : Byte), ∃ p,
      outputOf (.timeEncode y mo d wd h mi se) s = some (.bytes p) ∧
      outputOf (hello y mo d wd h mi se) s = some (.bytes
        ([0x63#8, 0x3B#8, 0x30#8, 0x30#8, 0x31#8, 0x34#8, 0x3B#8] ++ p ++ [0x0D#8, 0x0A#8])) ∧
      p.length + 9 = 25)

/-! ## The Frame Reader -/

/-- R113: a byte at the start of a line. -/
def Obligations.PushByteAtLineStart : Prop :=
  ∀ (b : Byte) (s : State), s.frState = .idle → s.inReady = true →
    (b = 0x06#8 → ∃ o, exec (.pushByte b) s = .next { s with evq := s.evq ++ [.ack], out := o }) ∧
    (b = 0x15#8 → ∃ o, exec (.pushByte b) s = .next { s with evq := s.evq ++ [.nack], out := o }) ∧
    (b = 0x63#8 → ∃ o, exec (.pushByte b) s = .next { s with frState := .gotC, out := o }) ∧
    (b ≠ 0x06#8 → b ≠ 0x15#8 → b ≠ 0x63#8 →
      ∃ o, exec (.pushByte b) s = .next { s with evq := s.evq ++ [.junk b], out := o })

/-- R114: the byte after a line-initial `'c'`, the two events in the order of R131. -/
def Obligations.PushByteAfterC : Prop :=
  ∀ (b : Byte) (s : State), s.frState = .gotC → s.inReady = true →
    (b = 0x3B#8 → ∃ o, exec (.pushByte b) s = .next { s with frState := .inBody, out := o }) ∧
    (b = 0x06#8 → ∃ o, exec (.pushByte b) s =
      .next { s with frState := .idle, evq := s.evq ++ [.junk 0x63#8, .ack], out := o }) ∧
    (b = 0x15#8 → ∃ o, exec (.pushByte b) s =
      .next { s with frState := .idle, evq := s.evq ++ [.junk 0x63#8, .nack], out := o }) ∧
    (b = 0x63#8 → ∃ o, exec (.pushByte b) s = .next { s with evq := s.evq ++ [.junk 0x63#8], out := o }) ∧
    (b ≠ 0x3B#8 → b ≠ 0x06#8 → b ≠ 0x15#8 → b ≠ 0x63#8 → ∃ o, exec (.pushByte b) s =
      .next { s with frState := .idle, evq := s.evq ++ [.junk 0x63#8, .junk b], out := o })

/-- R115: a byte other than LF inside a text-frame line, whatever it is. -/
def Obligations.PushByteInsideALine : Prop :=
  ∀ (b : Byte) (s : State), s.frState = .inBody → s.inReady = true → b ≠ 0x0A#8 →
    (s.body.length < s.cfg.bodyMax → ∃ o, exec (.pushByte b) s = .next { s with body := s.body ++ [b], out := o }) ∧
    (s.cfg.bodyMax ≤ s.body.length → ∃ o, exec (.pushByte b) s =
      .next { s with frState := .discard, body := [], evq := s.evq ++ [.frameError .overflow], out := o })

/-- R116: LF ends the line with the one event that `LINE_CLASSIFY` gives for the body, whatever the body's length. -/
def Obligations.PushLfEndsTheLine : Prop :=
  ∀ s : State, s.frState = .inBody → s.inReady = true → ∃ ev o,
    outputOf (.lineClassify s.body) s = some (.classified ev) ∧
    exec (.pushByte 0x0A#8) s = .next { s with frState := .idle, body := [], evq := s.evq ++ [ev], out := o }

/-- R117: the rest of an overflowed line yields nothing. -/
def Obligations.PushByteWhileDiscarding : Prop :=
  ∀ (b : Byte) (s : State), s.frState = .discard → s.inReady = true →
    (b = 0x0A#8 → ∃ o, exec (.pushByte b) s = .next { s with frState := .idle, out := o }) ∧
    (b ≠ 0x0A#8 → ∃ o, exec (.pushByte b) s = .next { s with out := o })

/-- The oldest event leaves and nothing of the partial line changes; the producer is ready once two slots are free
(`43_frame_reader.md` section 2). On an empty queue the operation holds and the block keeps its state; that it then
answers a next state is log entry 3. -/
def Obligations.PopEventHandsOverTheOldest : Prop :=
  ∀ s : State,
    (∀ (ev : Event) (rest : List Event), s.evq = ev :: rest →
      ∃ t, exec .popEvent s = .next t ∧ t = { s with evq := rest, out := some (.popped ev) } ∧
        (t.inReady = true ↔ rest.length + 2 ≤ s.cfg.evqDepth)) ∧
    (s.evq = [] → ∃ o, exec .popEvent s = .next { s with out := o } ∧ o.bind Output.popped? = none)

/-- R120 and R33: the Frame Reader's reset, from every state; the parameters stay. -/
def Obligations.ResetEmptiesTheReader : Prop :=
  ∀ s : State, ∃ o, exec .reset s = .next { s with frState := .idle, body := [], evq := [], out := o }

/-- The model's choice of log entries 3 and 4: an enabled `PUSH_BYTE` and `RESET` leave the output port empty, and a
held operation names its hold there and changes nothing else. -/
def Obligations.OutputPortOfReaderOperations : Prop :=
  ∀ s : State,
    (∀ b, s.inReady = true → outputOf (.pushByte b) s = none) ∧
    (∀ b, s.inReady = false →
      exec (.pushByte b) s = .next { s with out := some (.held .pushNotReady) }) ∧
    (s.evValid = false → exec .popEvent s = .next { s with out := some (.held .popEmpty) }) ∧
    outputOf .reset s = none

/-- R30: after `RESET` the state and the derived signals are exactly these. -/
def Obligations.SignalsAfterReset : Prop :=
  ∀ s : State, s.cfg.ok = true → ∃ t, exec .reset s = .next t ∧
    t.frState = .idle ∧ t.body = [] ∧ t.evq = [] ∧ t.inReady = true ∧ t.evValid = false ∧
    t.evKind = none ∧ t.evByte = none ∧ t.evWord = none ∧ t.evReason = none ∧ t.evPlen = none ∧
    t.evPayload = none

/-- The two holds of `60_exceptions.md` section 2: the held operation changes no state of the block, and each is lifted
as that table says. That the step goes on past a hold is log entry 3. -/
def Obligations.HoldsChangeNothingAndAreLifted : Prop :=
  ∀ s : State,
    (∀ b, s.inReady = false →
      (∃ o, exec (.pushByte b) s = .next { s with out := o }) ∧
      (∀ t, exec .popEvent s = .next t → s.evq.length + 1 = s.cfg.evqDepth → s.evq ≠ [] → t.inReady = true) ∧
      (∀ t, exec .reset s = .next t → s.cfg.ok = true → t.inReady = true)) ∧
    (s.evValid = false →
      (∃ o, exec .popEvent s = .next { s with out := o }) ∧
      ∀ b t, exec (.pushByte b) s = .next t → s.inReady = true → emittedBy b s ≠ [] → t.evValid = true)

/-- R118: at most two events for a byte, by state, all appended to the queue, which never overflows. -/
def Obligations.PushEmitsAtMostTwoAndLosesNone : Prop :=
  ∀ (b : Byte) (s : State), s.inReady = true → ∃ es t,
    exec (.pushByte b) s = .next t ∧ t.evq = s.evq ++ es ∧ es.length ≤ 2 ∧
    (s.frState = .idle → es.length ≤ 1) ∧ (s.frState = .inBody → es.length ≤ 1) ∧
    (s.frState = .discard → es = []) ∧ t.evq.length ≤ s.cfg.evqDepth

/-- An enabled `PUSH_BYTE` always changes the state or the queue, except a byte other than LF dropped in `DISCARD`
(`20_memory.md` section 4). -/
def Obligations.EnabledPushChangesTheReader : Prop :=
  ∀ (b : Byte) (s t : State), s.inReady = true → exec (.pushByte b) s = .next t →
    ((t.frState = s.frState ∧ t.body = s.body ∧ t.evq = s.evq) ↔ (s.frState = .discard ∧ b ≠ 0x0A#8))

/-- R57 and R59: the codes of the event kinds and of the states; codes 5 to 7 are never produced, and every state code
is used. -/
def Obligations.KindAndStateCodes : Prop :=
  (∀ w p b r, Event.ack.kindCode = 0#3 ∧ Event.nack.kindCode = 1#3 ∧ (Event.text w p).kindCode = 2#3 ∧
    (Event.junk b).kindCode = 3#3 ∧ (Event.frameError r).kindCode = 4#3) ∧
  (∀ s : State, s.evKind ≠ some 5#3 ∧ s.evKind ≠ some 6#3 ∧ s.evKind ≠ some 7#3) ∧
  FrState.idle.code = 0#2 ∧ FrState.gotC.code = 1#2 ∧ FrState.inBody.code = 2#2 ∧ FrState.discard.code = 3#2 ∧
  ∀ c : BitVec 2, ∃ q : FrState, q.code = c

/-- R20: the event output ports present the head of the queue while there is one, a field that the head's kind does not
have has no value, and with an empty queue no port has one; the reason codes are those of `30_encoding.md`. -/
def Obligations.EventPortsPresentTheHead : Prop :=
  ∀ (s : State) (rest : List Event),
    (s.evValid = true ↔ s.evq ≠ []) ∧
    (s.evValid = false → s.evKind = none ∧ s.evByte = none ∧ s.evWord = none ∧ s.evReason = none ∧
      s.evPlen = none ∧ s.evPayload = none) ∧
    (∀ w p, s.evq = .text w p :: rest → s.evKind = some 2#3 ∧ s.evWord = some w ∧ s.evPayload = some p ∧
      s.evPlen = some p.length ∧ s.evByte = none ∧ s.evReason = none) ∧
    (∀ b, s.evq = .junk b :: rest → s.evKind = some 3#3 ∧ s.evByte = some b ∧ s.evWord = none ∧
      s.evPayload = none ∧ s.evPlen = none ∧ s.evReason = none) ∧
    (∀ r, s.evq = .frameError r :: rest → s.evKind = some 4#3 ∧ s.evReason = some r.code ∧ s.evByte = none ∧
      s.evWord = none ∧ s.evPayload = none ∧ s.evPlen = none) ∧
    (s.evq = .ack :: rest → s.evKind = some 0#3) ∧ (s.evq = .nack :: rest → s.evKind = some 1#3) ∧
    (s.evq = .ack :: rest ∨ s.evq = .nack :: rest → s.evByte = none ∧ s.evWord = none ∧ s.evReason = none ∧
      s.evPayload = none ∧ s.evPlen = none) ∧
    FrameErrorReason.fieldCount.code = 0#2 ∧ FrameErrorReason.badHex.code = 1#2 ∧
    FrameErrorReason.noCr.code = 2#2 ∧ FrameErrorReason.overflow.code = 3#2

/-! ## The whole machine -/

/-- The reset state, whatever legal parameters the block is built with, satisfies the invariant; so does the model's
`State.reset`, whose parameter values are log entry 1. -/
def Obligations.ResetStateSatisfiesTheInvariant : Prop :=
  (∀ c : Config, c.ok = true → (State.resetWith c).Inv) ∧ State.reset.Inv

/-- R17: every step keeps the invariants, with the payload bound of R7 and the constraints of R6, from every state that
has them. -/
def Obligations.EveryStepKeepsTheInvariant : Prop :=
  ∀ s t : State, s.Inv → step s = .next t → t.Inv

/-- No step changes the parameters (`10_state.md` sections 3 and 5), and each step takes at most one offer (log entry
2). -/
def Obligations.StepsNeverChangeTheParameters : Prop :=
  ∀ s t : State, step s = .next t → t.cfg = s.cfg ∧ t.ops = s.ops.tail

/-- R7: no received `TEXT` event carries more than `BODY_MAX - 6` payload bytes, and one can carry as many. -/
def Obligations.TextPayloadBoundIsTight : Prop :=
  (∀ (s t : State) (w : Word) (p : Bytes), s.Inv → step s = .next t → Event.text w p ∈ t.evq →
    p.length + 6 ≤ s.cfg.bodyMax) ∧
  ∀ c : Config, c.ok = true → ∃ xs w p,
    feedEvents xs (State.resetWith c) = [.text w p] ∧ p.length + 6 = c.bodyMax

/-- Without a `RESET`, the events popped and then the events still queued are the events that were queued and then
those emitted, in order: none is duplicated, dropped or reordered (`20_memory.md` section 5). -/
def Obligations.EventsLeaveInEmissionOrder : Prop :=
  ∀ (is : List Instr) (s : State), Instr.reset ∉ is →
    observed is s ++ (after is s).evq = s.evq ++ emitted is s

/-- From reset, the events emitted for any bytes are those of the reference scan when no text-frame line is longer than
`BODY_MAX`; otherwise a longer line, complete or not, gives one `FRAME_ERROR(OVERFLOW)` and nothing else
(`43_frame_reader.md` section 3; the scan on a fuel and its bounded form are log entry 14). -/
def Obligations.FeedEmitsTheReferenceScan : Prop :=
  ∀ (c : Config) (xs : Bytes), c.ok = true →
    ((∀ body ∈ textBodies xs, body.length ≤ c.bodyMax) → feedEvents xs (State.resetWith c) = scan xs) ∧
    feedEvents xs (State.resetWith c) = scanMax c.bodyMax xs

/-- A frame that `FRAME_ENCODE` builds, pushed byte by byte into a reader at the start of a line, comes out as one
`TEXT` event with its word and payload, and the reader is at the start of a line again (`41_command_codec.md`
section 4 and `43_frame_reader.md` section 1; the empty output port is log entry 4). -/
def Obligations.SentFrameIsReceived : Prop :=
  ∀ (cid : CmdId) (rcp : DoorId) (payload : Bytes) (s : State),
    payload.length ≤ s.cfg.txPayloadMax → payload.length + 6 ≤ s.cfg.bodyMax →
    0x3B#8 ∉ payload → 0x0A#8 ∉ payload →
    s.frState = .idle → s.body = [] → s.inReady = true →
    ∃ w f, outputOf (.cwEncode cid rcp) s = some (.word w) ∧
      outputOf (.frameEncode cid rcp payload) s = some (.bytes f) ∧
      (pushStr (List.replicate f.length .own) f s).2 = [] ∧
      after (pushStr (List.replicate f.length .own) f s).1 s =
        { s with evq := s.evq ++ [.text w payload], out := none }

/-- R124: the source's junk example, for every block built with legal parameters. -/
def Obligations.JunkThenFrameExample : Prop :=
  ∀ c : Config, c.ok = true →
    feedEvents [0xFF#8, 0x63#8, 0x3B#8, 0x30#8, 0x30#8, 0x30#8, 0x30#8, 0x3B#8, 0x0D#8, 0x0A#8]
      (State.resetWith c) = [.junk 0xFF#8, .text 0x0000#16 []]

/-- R125: coinciding operations equal either interleaving, the same event leaves, and `RESET` wins over both. The output
port, which a cycle leaves alone, is left open. -/
def Obligations.CoincidingOperationsAreInterleavings : Prop :=
  (∀ (b : Byte) (s : State) (ev : Event), s.inReady = true → s.evq.head? = some ev →
    cyclePopped ⟨some b, true, false⟩ s = some ev ∧
    (∃ o, after [.popEvent, .pushByte b] s = { cycle ⟨some b, true, false⟩ s with out := o }) ∧
    (∃ o, after [.pushByte b, .popEvent] s = { cycle ⟨some b, true, false⟩ s with out := o }) ∧
    observed [.popEvent, .pushByte b] s = [ev] ∧ observed [.pushByte b, .popEvent] s = [ev]) ∧
  ∀ (push : Option Byte) (pop : Bool) (s : State),
    cyclePopped ⟨push, pop, true⟩ s = none ∧
    ∃ o, exec .reset s = .next { cycle ⟨push, pop, true⟩ s with out := o }

/-- A consumer that stops popping leaves the producer held for ever: no operation but `POP_EVENT` and `RESET` changes
anything of a reader that is not ready (`70_reset_and_hazards.md` section 2). -/
def Obligations.WithoutPopsTheProducerStaysHeld : Prop :=
  ∀ (is : List Instr) (s : State), s.inReady = false → Instr.popEvent ∉ is → Instr.reset ∉ is →
    (after is s).inReady = false ∧ (after is s).frState = s.frState ∧ (after is s).body = s.body ∧
    (after is s).evq = s.evq ∧ observed is s = [] ∧ emitted is s = []

/-- `POP_ALL` with no other agent's turn in between hands over exactly the queued events, oldest first, comes to its end
and leaves the reader ready (`30_encoding.md` section 6, `60_exceptions.md` section 2). -/
def Obligations.PopAllDrainsTheQueue : Prop :=
  ∀ s : State, s.cfg.ok = true → ∃ is,
    popAll (List.replicate (s.evq.length + 1) .own) s = (is, true) ∧
    observed is s = s.evq ∧ (after is s).evq = [] ∧ (after is s).inReady = true ∧
    (after is s).frState = s.frState ∧ (after is s).body = s.body

/-! ## `PUSH_STR` and `POP_ALL` among the turns of other agents -/

/-- `PUSH_STR` loses, skips and repeats no byte, whatever the other agents do in between: the bytes taken, then those
not taken yet, are the string (`30_encoding.md` section 6; a held byte is offered again, log entry 3). -/
def Obligations.PushStrTakesEveryByteOnce : Prop :=
  ∀ (ts : List Turn) (bs : Bytes) (s : State), (∀ b, Turn.other (.pushByte b) ∉ ts) →
    taken (pushStr ts bs s).1 s ++ (pushStr ts bs s).2 = bs

/-- A `PUSH_STR` that has come to its end leaves the events and the partial line that pushing its bytes to a consumer
that pops whenever `in_ready` is false leaves, however pops and codec operations fell between its bytes
(`30_encoding.md` section 6 and `20_memory.md` section 5; a held byte is offered again, log entry 3). -/
def Obligations.PushStrDoesNotDependOnTheSchedule : Prop :=
  ∀ (ts : List Turn) (bs : Bytes) (s : State), s.cfg.ok = true →
    (∀ i, Turn.other i ∈ ts → i.isCodec = true ∨ i = .popEvent) → (pushStr ts bs s).2 = [] →
      observed (pushStr ts bs s).1 s ++ (after (pushStr ts bs s).1 s).evq = feedEvents bs s ∧
      (after (pushStr ts bs s).1 s).frState = (feed bs s).2.frState ∧
      (after (pushStr ts bs s).1 s).body = (feed bs s).2.body

/-- A consumer that empties the queue once and then pops twice before each byte lets every `PUSH_STR` come to its end
(`30_encoding.md` section 6 and `60_exceptions.md` section 2; a held byte is offered again, log entry 3). -/
def Obligations.PushStrEndsWhenTheConsumerPops : Prop :=
  ∀ (bs : Bytes) (s : State), s.cfg.ok = true →
    (pushStr (List.replicate s.evq.length (.other .popEvent) ++
      (List.replicate bs.length [.other .popEvent, .other .popEvent, .own]).flatten) bs s).2 = []

/-- `POP_ALL` pops while `ev_valid = 1` and no longer, whatever falls between its pops: it ends only on an empty queue;
until then each of its turns pops, and never an empty queue (a pop of another agent set aside, which the last two
clauses could not tell from its own) (`30_encoding.md` section 6). -/
def Obligations.PopAllPopsWhileAnEventIsQueued : Prop :=
  ∀ (ts : List Turn) (s : State),
    ((popAll ts s).2 = true → (after (popAll ts s).1 s).evq = []) ∧
    (Turn.other .popEvent ∉ ts →
      ((popAll ts s).2 = false → (popAll ts s).1.count .popEvent = ts.count .own) ∧
      ∀ done rest, (popAll ts s).1 = done ++ .popEvent :: rest → (after done s).evq ≠ [])

/-- A `POP_ALL` that has come to its end has handed over the events that were queued and then those emitted meanwhile,
in order, when no other agent pops or resets (`30_encoding.md` section 6 and `20_memory.md` section 5). -/
def Obligations.PopAllHandsOverLaterEventsToo : Prop :=
  ∀ (ts : List Turn) (s : State), (∀ i, Turn.other i ∈ ts → i ≠ .popEvent ∧ i ≠ .reset) →
    (popAll ts s).2 = true →
      observed (popAll ts s).1 s = s.evq ++ emitted (popAll ts s).1 s

/-- `POP_ALL` comes to its end within one turn more than there were events, when no other agent pushes a byte
(`30_encoding.md` section 6). -/
def Obligations.PopAllEndsWhenNothingIsPushed : Prop :=
  ∀ (ts : List Turn) (s : State), (∀ b, Turn.other (.pushByte b) ∉ ts) → s.evq.length < ts.count .own →
    (popAll ts s).2 = true
end

