-- ==== Sys2Proof/Laws/State.lean ====
section
/-! SUPPORT. One lemma per field per update of the state, each true by `rfl`, so that no proof unfolds a record
update. -/

namespace Sys2Proof.Machine

@[simp] theorem resetWith_cfg (c : Config) : (State.resetWith c).cfg = c := rfl
@[simp] theorem resetWith_frState (c : Config) : (State.resetWith c).frState = .idle := rfl
@[simp] theorem resetWith_body (c : Config) : (State.resetWith c).body = [] := rfl
@[simp] theorem resetWith_evq (c : Config) : (State.resetWith c).evq = [] := rfl
@[simp] theorem resetWith_ops (c : Config) : (State.resetWith c).ops = [] := rfl
@[simp] theorem resetWith_out (c : Config) : (State.resetWith c).out = none := rfl

@[simp] theorem emit_cfg (s : State) (ev : Event) : (s.emit ev).cfg = s.cfg := rfl
@[simp] theorem emit_frState (s : State) (ev : Event) : (s.emit ev).frState = s.frState := rfl
@[simp] theorem emit_body (s : State) (ev : Event) : (s.emit ev).body = s.body := rfl
@[simp] theorem emit_evq (s : State) (ev : Event) : (s.emit ev).evq = s.evq ++ [ev] := rfl
@[simp] theorem emit_ops (s : State) (ev : Event) : (s.emit ev).ops = s.ops := rfl
@[simp] theorem emit_out (s : State) (ev : Event) : (s.emit ev).out = s.out := rfl

@[simp] theorem clear_cfg (s : State) : s.clear.cfg = s.cfg := rfl
@[simp] theorem clear_frState (s : State) : s.clear.frState = .idle := rfl
@[simp] theorem clear_body (s : State) : s.clear.body = [] := rfl
@[simp] theorem clear_evq (s : State) : s.clear.evq = [] := rfl
@[simp] theorem clear_ops (s : State) : s.clear.ops = s.ops := rfl
@[simp] theorem clear_out (s : State) : s.clear.out = s.out := rfl

@[simp] theorem withFetchWord_cfg (s : State) (n w : Nat) : (s.withFetchWord n w).cfg = s.cfg := rfl
@[simp] theorem withFetchWord_frState (s : State) (n w : Nat) : (s.withFetchWord n w).frState = s.frState := rfl
@[simp] theorem withFetchWord_body (s : State) (n w : Nat) : (s.withFetchWord n w).body = s.body := rfl
@[simp] theorem withFetchWord_evq (s : State) (n w : Nat) : (s.withFetchWord n w).evq = s.evq := rfl
@[simp] theorem withFetchWord_ops (s : State) (n w : Nat) :
    (s.withFetchWord n w).ops = rawOfTableWord n w :: s.ops := rfl
@[simp] theorem withFetchWord_out (s : State) (n w : Nat) : (s.withFetchWord n w).out = s.out := rfl

@[simp] theorem nextOr_next (s t : State) : nextOr s (.next t) = t := rfl
@[simp] theorem nextOr_refused (s : State) (r : Refusal) : nextOr s (.refused r) = s := rfl

end Sys2Proof.Machine
end

