-- ==== Sys2Proof/Laws/Codec.lean ====
section
/-! SUPPORT. One lemma for each codec operation's ingredient: digits, numbers written in digits, the split at `';'`
and the classifier. Later proofs cite these instead of unfolding the definitions. -/

namespace Sys2Proof.Machine

/-! ### Digits -/

@[simp] theorem hexVal_hexChar (n : Nibble) : hexVal (hexChar n) = some n := by
  revert n; decide

theorem hexChar_eq_upperDigit (n : Nibble) : hexChar n = upperDigits.getD n.toNat 0#8 := by
  revert n; decide

theorem hexChar_mem_upperDigits (n : Nibble) : hexChar n ∈ upperDigits := by
  revert n; decide

@[simp] theorem semi_ne_hexChar (n : Nibble) : semiByte ≠ hexChar n := by
  revert n; decide

@[simp] theorem lf_ne_hexChar (n : Nibble) : lfByte ≠ hexChar n := by
  revert n; decide

@[simp] theorem hexChar_ne_semi (n : Nibble) : hexChar n ≠ semiByte := by
  revert n; decide

@[simp] theorem hexChar_ne_lf (n : Nibble) : hexChar n ≠ lfByte := by
  revert n; decide

theorem hexChar_injective (m n : Nibble) (h : hexChar m = hexChar n) : m = n := by
  have := congrArg hexVal h
  simpa using this

/-- An uppercase digit is the rendering of its own value. -/
theorem hexChar_of_mem_upperDigits (b : Byte) (n : Nibble) (hb : b ∈ upperDigits) (h : hexVal b = some n) :
    hexChar n = b := by
  revert n; revert hb; revert b; decide

/-! ### Rendering -/

theorem upperDigit_eq_hexChar (k : Nat) : upperDigits.getD (k % 16) 0#8 = hexChar (BitVec.ofNat 4 k) := by
  rw [hexChar_eq_upperDigit]; simp

theorem hex2_eq_spell (v : Byte) : hex2 v = spell 2 v.toNat := by
  simp only [hex2, spell, upperDigit_eq_hexChar, List.nil_append, List.singleton_append]
  congr 2
  · apply BitVec.eq_of_toNat_eq
    simp [BitVec.extractLsb'_toNat, Nat.shiftRight_eq_div_pow]

theorem hex4_eq_spell (w : Word) : hex4 w = spell 4 w.toNat := by
  simp only [hex4, spell, upperDigit_eq_hexChar, List.nil_append, List.cons_append]
  have e : ∀ k m : Nat, m = w.toNat / 2 ^ k → w.extractLsb' k 4 = BitVec.ofNat 4 m := by
    intro k m hm
    apply BitVec.eq_of_toNat_eq
    simp [BitVec.extractLsb'_toNat, Nat.shiftRight_eq_div_pow, hm]
  rw [e 12 _ (by omega : w.toNat / 16 / 16 / 16 = _), e 8 _ (by omega : w.toNat / 16 / 16 = _),
    e 4 _ (by omega : w.toNat / 16 = _), e 0 _ (by omega : w.toNat = _)]

@[simp] theorem hex4_length (w : Word) : (hex4 w).length = 4 := rfl

@[simp] theorem hex2_length (v : Byte) : (hex2 v).length = 2 := rfl

theorem hex4_no_semi (w : Word) : semiByte ∉ hex4 w := by
  simp [hex4]

theorem hex4_no_lf (w : Word) : lfByte ∉ hex4 w := by
  simp [hex4]

/-! ### Parsing -/

/-- Digits parse exactly when every byte is a digit, and then to the digits' values. -/
theorem hexDigits_eq_some (d : Bytes) (vs : List Nibble) :
    hexDigits d = some vs ↔ d.map hexVal = vs.map some := by
  induction d generalizing vs with
  | nil => cases vs <;> simp [hexDigits]
  | cons b bs ih =>
    cases hv : hexVal b with
    | none => cases vs <;> simp [hexDigits, hv]
    | some v =>
      cases hd : hexDigits bs with
      | none =>
        cases vs with
        | nil => simp [hexDigits, hv, hd]
        | cons u us =>
          have := (ih us).not.mp (by simp [hd])
          simp [hexDigits, hv, hd, this]
      | some us' =>
        cases vs with
        | nil => simp [hexDigits, hv, hd]
        | cons u us =>
          have := ih us
          simp only [hd, Option.some.injEq] at this
          simp [hexDigits, hv, hd, this]

theorem hexDigits_eq_none (d : Bytes) : hexDigits d = none ↔ ∃ b ∈ d, hexVal b = none := by
  induction d with
  | nil => simp [hexDigits]
  | cons b bs ih =>
    cases hv : hexVal b <;> cases hd : hexDigits bs <;> simp_all [hexDigits]

/-- The 16-bit accumulation of digits loses nothing while the number fits. -/
theorem foldl_digits_toNat (vs : List Nibble) (acc : Word) (h : (acc.toNat + 1) * 16 ^ vs.length ≤ 2 ^ 16) :
    (vs.foldl (fun (a : Word) (v : Nibble) => (a <<< 4) ||| v.setWidth 16) acc).toNat
      = vs.foldl (fun a v => 16 * a + v.toNat) acc.toNat := by
  induction vs generalizing acc with
  | nil => rfl
  | cons v vs ih =>
    have hv := v.isLt
    have hlen : 0 < 16 ^ vs.length := Nat.pow_pos (by decide)
    have hacc : (acc.toNat + 1) * 16 ≤ 2 ^ 16 := by
      rw [List.length_cons, Nat.pow_succ'] at h
      calc (acc.toNat + 1) * 16 ≤ (acc.toNat + 1) * (16 * 16 ^ vs.length) :=
            Nat.mul_le_mul_left _ (Nat.le_mul_of_pos_right _ hlen)
        _ ≤ 2 ^ 16 := h
    have key : ((acc <<< 4) ||| v.setWidth 16).toNat = 16 * acc.toNat + v.toNat := by
      rw [BitVec.toNat_or, BitVec.toNat_shiftLeft, BitVec.toNat_setWidth, Nat.shiftLeft_eq,
        Nat.mod_eq_of_lt (by omega : acc.toNat * 2 ^ 4 < 2 ^ 16),
        Nat.mod_eq_of_lt (by omega : v.toNat < 2 ^ 16), Nat.mul_comm,
        ← Nat.two_pow_add_eq_or_of_lt hv]
    rw [List.foldl_cons, List.foldl_cons, ih _ (by
      rw [key]
      rw [List.length_cons, Nat.pow_succ'] at h
      calc (16 * acc.toNat + v.toNat + 1) * 16 ^ vs.length ≤ ((acc.toNat + 1) * 16) * 16 ^ vs.length :=
            Nat.mul_le_mul_right _ (by omega)
        _ = (acc.toNat + 1) * (16 * 16 ^ vs.length) := Nat.mul_assoc ..
        _ ≤ 2 ^ 16 := h), key]

theorem hexNumber_toNat (vs : List Nibble) (h : vs.length ≤ 4) : (hexNumber vs).toNat = spelt vs := by
  refine foldl_digits_toNat vs 0#16 ?_
  simp only [BitVec.toNat_ofNat, Nat.zero_mod, Nat.zero_add, Nat.one_mul]
  exact le_trans (Nat.pow_le_pow_right (by decide) h) (by decide)

/-- The value of `parseHex4` on four digits is the number they spell. -/
theorem parseHex4_eq_hexNumber (a b c e : Nibble) :
    ((a.setWidth 16 <<< 12) ||| (b.setWidth 16 <<< 8) ||| (c.setWidth 16 <<< 4) ||| e.setWidth 16 : Word)
      = hexNumber [a, b, c, e] := by
  ext i hi
  simp only [hexNumber, List.foldl_cons, List.foldl_nil]
  simp only [BitVec.getElem_or, BitVec.getElem_shiftLeft, BitVec.getElem_setWidth, BitVec.getElem_zero]
  interval_cases i <;> simp

/-- `HEX4_PARSE` gives a word exactly on four digits, and then the number they spell. -/
theorem parseHex4_eq_some (d : Bytes) (w : Word) :
    parseHex4 d = some w ↔ ∃ a b c e : Nibble,
      d.map hexVal = [some a, some b, some c, some e] ∧ w = hexNumber [a, b, c, e] := by
  constructor
  · intro h
    unfold parseHex4 at h
    split at h
    · rename_i a b c e hd
      refine ⟨a, b, c, e, by simpa using (hexDigits_eq_some d _).mp hd, ?_⟩
      rw [← parseHex4_eq_hexNumber]; simpa using h.symm
    · cases h
  · rintro ⟨a, b, c, e, hd, rfl⟩
    have : hexDigits d = some [a, b, c, e] := (hexDigits_eq_some d _).mpr (by simpa using hd)
    simp only [parseHex4, this, parseHex4_eq_hexNumber]

theorem hexNumber_nibbles (w : Word) :
    hexNumber [w.extractLsb' 12 4, w.extractLsb' 8 4, w.extractLsb' 4 4, w.extractLsb' 0 4] = w := by
  rw [← parseHex4_eq_hexNumber]
  ext i hi
  simp only [BitVec.getElem_or, BitVec.getElem_shiftLeft, BitVec.getElem_setWidth, BitVec.getLsbD_extractLsb']
  interval_cases i <;> simp

@[simp] theorem parseHex4_hex4 (w : Word) : parseHex4 (hex4 w) = some w := by
  rw [parseHex4_eq_some]
  exact ⟨_, _, _, _, by simp [hex4], (hexNumber_nibbles w).symm⟩

/-! ### The split at `';'` and the classifier -/

theorem splitSemi_ne_nil (xs : Bytes) : splitSemi xs ≠ [] := by
  cases xs with
  | nil => simp [splitSemi]
  | cons b bs =>
    simp only [splitSemi]
    split
    · simp
    · split <;> simp

/-- A split has one part more than there are `';'` bytes (R10). -/
theorem splitSemi_length (xs : Bytes) : (splitSemi xs).length = xs.count semiByte + 1 := by
  induction xs with
  | nil => rfl
  | cons b bs ih =>
    by_cases hb : b = semiByte
    · simp [splitSemi, hb, ih]
    · have hne := splitSemi_ne_nil bs
      cases hs : splitSemi bs with
      | nil => exact absurd hs hne
      | cons p ps => simp [splitSemi, hb, hs] at ih ⊢; simpa [hb] using ih

theorem splitSemi_of_not_mem (xs : Bytes) (h : semiByte ∉ xs) : splitSemi xs = [xs] := by
  induction xs with
  | nil => rfl
  | cons b bs ih =>
    simp only [List.mem_cons, not_or] at h
    simp [splitSemi, Ne.symm h.1, ih h.2]

theorem splitSemi_append (f p : Bytes) (h : semiByte ∉ f) :
    splitSemi (f ++ semiByte :: p) = f :: splitSemi p := by
  induction f with
  | nil => simp [splitSemi]
  | cons b bs ih =>
    simp only [List.mem_cons, not_or] at h
    simp [splitSemi, Ne.symm h.1, ih h.2]

/-- The only way to have exactly two parts: one `';'` between two parts without one. -/
theorem splitSemi_eq_pair (xs f p : Bytes) (h : splitSemi xs = [f, p]) :
    xs = f ++ semiByte :: p ∧ semiByte ∉ f ∧ semiByte ∉ p := by
  induction xs generalizing f with
  | nil => simp [splitSemi] at h
  | cons b bs ih =>
    by_cases hb : b = semiByte
    · simp only [splitSemi, hb, if_true, List.cons.injEq] at h
      have hlen := splitSemi_length bs
      rw [h.2] at hlen
      have hno : semiByte ∉ bs := List.count_eq_zero.mp (by simpa using hlen.symm)
      rw [splitSemi_of_not_mem bs hno] at h
      simp only [List.cons.injEq, and_true] at h
      rw [← h.1, ← h.2, hb]
      exact ⟨rfl, List.not_mem_nil, hno⟩
    · cases hs : splitSemi bs with
      | nil => exact absurd hs (splitSemi_ne_nil bs)
      | cons q qs =>
        simp only [splitSemi, hb, if_false, hs, List.cons.injEq] at h
        obtain ⟨hf, hqs⟩ := h
        have := ih q (by rw [hs, hqs])
        subst hf
        refine ⟨by rw [this.1]; rfl, ?_, this.2.2⟩
        simp only [List.mem_cons, not_or]
        exact ⟨Ne.symm hb, this.2.1⟩

/-- The three outcomes of the classifier on a body with its CR, by its one `';'`. -/
theorem classify_append_cr (line : Bytes) :
    classify (line ++ [crByte]) =
      match splitSemi line with
      | [field, payload] =>
        (match parseHex4 field with
        | some w => .text w payload
        | none => .frameError .badHex)
      | _ => .frameError .fieldCount := by
  simp [classify] <;> rfl

theorem classify_fields (field payload : Bytes) (hf : semiByte ∉ field) (hp : semiByte ∉ payload) :
    classify (field ++ [semiByte] ++ payload ++ [crByte]) =
      match parseHex4 field with
      | some w => .text w payload
      | none => .frameError .badHex := by
  have e : field ++ [semiByte] ++ payload = field ++ semiByte :: payload := by simp
  rw [classify_append_cr, e, splitSemi_append _ _ hf, splitSemi_of_not_mem _ hp]

theorem classify_fieldCount (line : Bytes) (h : line.count semiByte ≠ 1) :
    classify (line ++ [crByte]) = .frameError .fieldCount := by
  rw [classify_append_cr]
  have hlen := splitSemi_length line
  split
  · rename_i f p hs
    rw [hs] at hlen
    simp at hlen
    omega
  · rfl

theorem classify_noCr (body : Bytes) (h : ¬ ∃ line, body = line ++ [crByte]) :
    classify body = .frameError .noCr := by
  have : body.getLast? ≠ some crByte := fun hl =>
    h ⟨body.dropLast, by rw [List.dropLast_append_getLast? _ hl]⟩
  simp [classify, this]

/-- A body that classifies as `TEXT` holds its four digits, one `';'`, the payload and CR (R7, R48). -/
theorem classify_text_length (body : Bytes) (w : Word) (p : Bytes) (h : classify body = .text w p) :
    p.length + 6 = body.length := by
  by_cases hcr : ∃ line, body = line ++ [crByte]
  · obtain ⟨line, rfl⟩ := hcr
    rw [classify_append_cr] at h
    split at h
    · rename_i f q hs
      split at h
      · rename_i v hv
        obtain ⟨a, b, c, e, hd, -⟩ := (parseHex4_eq_some _ _).mp hv
        have hlen : f.length = 4 := by simpa using congrArg List.length hd
        obtain ⟨rfl, -, -⟩ := splitSemi_eq_pair _ _ _ hs
        simp only [Event.text.injEq] at h
        simp [hlen, ← h.2]
        omega
      · cases h
    · cases h
  · rw [classify_noCr body hcr] at h
    cases h

/-! ### Frames -/

theorem frameBytes_eq (cid : CmdId) (rcp : DoorId) (payload : Bytes) :
    frameBytes cid rcp payload =
      cByte :: semiByte :: ((hex4 (cwPack cid rcp) ++ [semiByte] ++ payload ++ [crByte]) ++ [lfByte]) := by
  simp [frameBytes]

@[simp] theorem frameBytes_length (cid : CmdId) (rcp : DoorId) (payload : Bytes) :
    (frameBytes cid rcp payload).length = 9 + payload.length := by
  simp [frameBytes]; omega

/-- The body of an encoded frame, the bytes between `c;` and LF. -/
theorem frameBytes_body (cid : CmdId) (rcp : DoorId) (payload : Bytes) :
    ((frameBytes cid rcp payload).drop 2).take (6 + payload.length) =
      hex4 (cwPack cid rcp) ++ [semiByte] ++ payload ++ [crByte] := by
  rw [frameBytes_eq, List.drop_succ_cons, List.drop_succ_cons, List.drop_zero]
  exact List.take_left' (by simp; omega)

end Sys2Proof.Machine
end

