-- ==== Sys2Proof/Laws/Decode.lean ====
section
/-! SUPPORT. What each operand reader of the decoder does, said once: it refuses a wrong shape, then a wide operand, and
otherwise reads the operation. -/

namespace Sys2Proof

/-- What a reader answers on an operand list, for a format with the positions `ts`. -/
def readsLike (ts : List OperandType) (read : List Operand → Except DecodeError Instr) : Prop :=
  ∀ os, (shapeOk ts os = false → read os = .error .operandFormat) ∧
    (shapeOk ts os = true → widthsOk ts os = false → read os = .error .operandWidth) ∧
    (shapeOk ts os = true → widthsOk ts os = true → ∃ i, read os = .ok i)

theorem shapeOk_nil (os : List Operand) : shapeOk [] os = true ↔ os = [] := by
  cases os <;> simp [shapeOk]

theorem shapeOk_bits (w : Nat) (ts : List OperandType) (os : List Operand) :
    shapeOk (.bits w :: ts) os = true ↔ ∃ n rest, os = .num n :: rest ∧ shapeOk ts rest = true := by
  rcases os with _ | ⟨_ | _, rest⟩ <;> simp [shapeOk, OperandType.admits]

theorem shapeOk_byteList (ts : List OperandType) (os : List Operand) :
    shapeOk (.byteList :: ts) os = true ↔ ∃ bs rest, os = .bytes bs :: rest ∧ shapeOk ts rest = true := by
  rcases os with _ | ⟨_ | _, rest⟩ <;> simp [shapeOk, OperandType.admits]

theorem readW_reads (mk : Word → Instr) : readsLike Format.fmtW.types (readW mk) := by
  intro os
  refine ⟨fun h => ?_, fun h hw => ?_, fun h hw => ?_⟩
  · unfold readW; split
    · simp [Format.types, shapeOk, OperandType.admits] at h
    · rfl
  all_goals
    simp only [Format.types, shapeOk_bits, shapeOk_nil] at h
    obtain ⟨n, rest, rfl, rfl⟩ := h
    simp only [Format.types, widthsOk, OperandType.fits, List.zip_cons_cons, List.zip_nil_right, List.all_cons,
      List.all_nil, Bool.and_true, decide_eq_true_eq, decide_eq_false_iff_not] at hw
    simp only [readW, hw, if_false, if_true]
  exact ⟨_, rfl⟩

theorem readCR_reads (mk : CmdId → DoorId → Instr) : readsLike Format.fmtCR.types (readCR mk) := by
  intro os
  refine ⟨fun h => ?_, fun h hw => ?_, fun h hw => ?_⟩
  · unfold readCR; split
    · simp [Format.types, shapeOk, OperandType.admits] at h
    · rfl
  all_goals
    simp only [Format.types, shapeOk_bits, shapeOk_nil] at h
    obtain ⟨n, _, rfl, m, _, rfl, rfl⟩ := h
    simp only [Format.types, widthsOk, OperandType.fits, List.zip_cons_cons, List.zip_nil_right, List.all_cons,
      List.all_nil, Bool.and_true, ← Bool.decide_and, decide_eq_true_eq, decide_eq_false_iff_not] at hw
    simp only [readCR, hw, if_false, if_true, and_self]
  exact ⟨_, rfl⟩

theorem readCRP_reads (mk : CmdId → DoorId → Bytes → Instr) : readsLike Format.fmtCRP.types (readCRP mk) := by
  intro os
  refine ⟨fun h => ?_, fun h hw => ?_, fun h hw => ?_⟩
  · unfold readCRP; split
    · simp [Format.types, shapeOk, OperandType.admits] at h
    · rfl
  all_goals
    simp only [Format.types, shapeOk_bits, shapeOk_byteList, shapeOk_nil] at h
    obtain ⟨n, _, rfl, m, _, rfl, p, _, rfl, rfl⟩ := h
    simp only [Format.types, widthsOk, OperandType.fits, List.zip_cons_cons, List.zip_nil_right, List.all_cons,
      List.all_nil, Bool.and_true, ← Bool.decide_and, decide_eq_true_eq, decide_eq_false_iff_not] at hw
    simp only [readCRP, hw, if_false, if_true, and_self]
  exact ⟨_, rfl⟩

theorem readB_reads (mk : Bytes → Instr) : readsLike Format.fmtB.types (readB mk) := by
  intro os
  refine ⟨fun h => ?_, fun h hw => ?_, fun h hw => ?_⟩
  · unfold readB; split
    · simp [Format.types, shapeOk, OperandType.admits] at h
    · rfl
  all_goals
    simp only [Format.types, shapeOk_byteList, shapeOk_nil] at h
    obtain ⟨p, _, rfl, rfl⟩ := h
    simp [Format.types, widthsOk, OperandType.fits] at hw
  exact ⟨_, rfl⟩

theorem readA_reads (mk : Bool → Byte → Instr) : readsLike Format.fmtA.types (readA mk) := by
  intro os
  refine ⟨fun h => ?_, fun h hw => ?_, fun h hw => ?_⟩
  · unfold readA; split
    · simp [Format.types, shapeOk, OperandType.admits] at h
    · rfl
  all_goals
    simp only [Format.types, shapeOk_bits, shapeOk_nil] at h
    obtain ⟨n, _, rfl, m, _, rfl, rfl⟩ := h
    simp only [Format.types, widthsOk, OperandType.fits, List.zip_cons_cons, List.zip_nil_right, List.all_cons,
      List.all_nil, Bool.and_true, ← Bool.decide_and, decide_eq_true_eq, decide_eq_false_iff_not] at hw
    simp only [readA, hw, if_false, if_true, and_self]
  exact ⟨_, rfl⟩

theorem readT_reads (mk : Word → Byte → Byte → Byte → Byte → Byte → Byte → Instr) :
    readsLike Format.fmtT.types (readT mk) := by
  intro os
  refine ⟨fun h => ?_, fun h hw => ?_, fun h hw => ?_⟩
  · unfold readT; split
    · simp [Format.types, shapeOk, OperandType.admits] at h
    · rfl
  all_goals
    simp only [Format.types, shapeOk_bits, shapeOk_nil] at h
    obtain ⟨y, _, rfl, mo, _, rfl, d, _, rfl, wd, _, rfl, hh, _, rfl, mi, _, rfl, se, _, rfl, rfl⟩ := h
    simp only [Format.types, widthsOk, OperandType.fits, List.zip_cons_cons, List.zip_nil_right, List.all_cons,
      List.all_nil, Bool.and_true, ← Bool.decide_and, decide_eq_true_eq, decide_eq_false_iff_not] at hw
    simp only [readT, hw, if_false, if_true, and_self]
  exact ⟨_, rfl⟩

theorem readP_reads (mk : Byte → Instr) : readsLike Format.fmtP.types (readP mk) := by
  intro os
  refine ⟨fun h => ?_, fun h hw => ?_, fun h hw => ?_⟩
  · unfold readP; split
    · simp [Format.types, shapeOk, OperandType.admits] at h
    · rfl
  all_goals
    simp only [Format.types, shapeOk_bits, shapeOk_nil] at h
    obtain ⟨n, rest, rfl, rfl⟩ := h
    simp only [Format.types, widthsOk, OperandType.fits, List.zip_cons_cons, List.zip_nil_right, List.all_cons,
      List.all_nil, Bool.and_true, decide_eq_true_eq, decide_eq_false_iff_not] at hw
    simp only [readP, hw, if_false, if_true]
  exact ⟨_, rfl⟩

theorem readN_reads (i : Instr) : readsLike Format.fmtN.types (readN i) := by
  intro os
  refine ⟨fun h => ?_, fun h hw => ?_, fun h hw => ?_⟩
  · unfold readN; split
    · simp [Format.types, shapeOk] at h
    · rfl
  all_goals
    simp only [Format.types, shapeOk_nil] at h
    obtain rfl := h
    simp [widthsOk, Format.types] at hw
  exact ⟨_, rfl⟩

/-- The decoder refuses a code without a format, and otherwise answers as the reader of the code's format does. -/
theorem decode_cases (o : RawOp) :
    (∃ f, formatOf o.op = some f ∧ ∃ read, readsLike f.types read ∧ decode o = read o.operands) ∨
    (formatOf o.op = none ∧ decode o = .error .reservedOp) := by
  obtain ⟨op, os⟩ := o
  have codes : ∀ c : BitVec 4, c = 0x0#4 ∨ c = 0x1#4 ∨ c = 0x2#4 ∨ c = 0x3#4 ∨ c = 0x4#4 ∨ c = 0x5#4 ∨ c = 0x6#4 ∨
      c = 0x7#4 ∨ c = 0x8#4 ∨ c = 0x9#4 ∨ c = 0xA#4 ∨ c = 0xB#4 ∨ c = 0xC#4 ∨ c = 0xD#4 ∨ c = 0xE#4 ∨ c = 0xF#4 := by
    decide
  rcases codes op with
    rfl | rfl | rfl | rfl | rfl | rfl | rfl | rfl | rfl | rfl | rfl | rfl | rfl | rfl | rfl | rfl
  all_goals first
    | exact .inr ⟨rfl, rfl⟩
    | exact .inl ⟨_, rfl, _, readW_reads _, rfl⟩
    | exact .inl ⟨_, rfl, _, readCR_reads _, rfl⟩
    | exact .inl ⟨_, rfl, _, readCRP_reads _, rfl⟩
    | exact .inl ⟨_, rfl, _, readB_reads _, rfl⟩
    | exact .inl ⟨_, rfl, _, readA_reads _, rfl⟩
    | exact .inl ⟨_, rfl, _, readT_reads _, rfl⟩
    | exact .inl ⟨_, rfl, _, readP_reads _, rfl⟩
    | exact .inl ⟨_, rfl, _, readN_reads _, rfl⟩

end Sys2Proof
end

