-- ==== Sys2Proof/Laws/PerInstr.lean ====
section
/-! SUPPORT. One family of statements per constructor of `Instr`: the offer that encodes an operation is well formed,
that is, it has its row's code, the shape of its row's format and operands that fit (R60, R61). -/

namespace Sys2Proof.Laws.EncodeWellFormed

/-- The offer that encodes `i` is well formed. -/
def Statement (i : Instr) : Prop := (encode i).wellFormed = true

theorem cwDecode (w : Word) : Statement (.cwDecode w) := by
  have := w.isLt
  simpa [Statement, encode, RawOp.wellFormed, formatOf, Format.types, shapeOk, OperandType.admits, widthsOk,
    OperandType.fits] using this

theorem cwEncode (cid : CmdId) (rcp : DoorId) : Statement (.cwEncode cid rcp) := by
  have h1 := cid.isLt
  have h2 := rcp.isLt
  simpa [Statement, encode, RawOp.wellFormed, formatOf, Format.types, shapeOk, OperandType.admits, widthsOk,
    OperandType.fits] using And.intro h1 h2

theorem hex4Render (w : Word) : Statement (.hex4Render w) := by
  have := w.isLt
  simpa [Statement, encode, RawOp.wellFormed, formatOf, Format.types, shapeOk, OperandType.admits, widthsOk,
    OperandType.fits] using this

theorem hex4Parse (d : Bytes) : Statement (.hex4Parse d) := rfl

theorem frameEncode (cid : CmdId) (rcp : DoorId) (payload : Bytes) : Statement (.frameEncode cid rcp payload) := by
  have h1 := cid.isLt
  have h2 := rcp.isLt
  simpa [Statement, encode, RawOp.wellFormed, formatOf, Format.types, shapeOk, OperandType.admits, widthsOk,
    OperandType.fits] using And.intro h1 h2

theorem lineClassify (body : Bytes) : Statement (.lineClassify body) := rfl

theorem allowEncode (grant : Bool) (secs : Byte) : Statement (.allowEncode grant secs) := by
  have h1 : grant.toNat < 2 := by cases grant <;> decide
  have h2 := secs.isLt
  simpa [Statement, encode, RawOp.wellFormed, formatOf, Format.types, shapeOk, OperandType.admits, widthsOk,
    OperandType.fits, Nat.lt_succ_iff] using And.intro h1 h2

theorem statusDecode (p : Bytes) : Statement (.statusDecode p) := rfl

theorem timeEncode (year : Word) (month day wday hour minute second : Byte) :
    Statement (.timeEncode year month day wday hour minute second) := by
  have h := And.intro year.isLt (And.intro month.isLt (And.intro day.isLt (And.intro wday.isLt
    (And.intro hour.isLt (And.intro minute.isLt second.isLt)))))
  simpa [Statement, encode, RawOp.wellFormed, formatOf, Format.types, shapeOk, OperandType.admits, widthsOk,
    OperandType.fits] using h

theorem pushByte (b : Byte) : Statement (.pushByte b) := by
  have := b.isLt
  simpa [Statement, encode, RawOp.wellFormed, formatOf, Format.types, shapeOk, OperandType.admits, widthsOk,
    OperandType.fits] using this

theorem popEvent : Statement .popEvent := rfl

theorem reset : Statement .reset := rfl

end Sys2Proof.Laws.EncodeWellFormed
end

