-- ==== Sys2Proof/Laws/Reader.lean ====
section
/-! SUPPORT. What taking a byte can do, said once (R111, R113 to R117), and what each Frame Reader operation answers.
Invariants and order claims cite these instead of unfolding the case rules. -/

namespace Sys2Proof.Machine

/-! ### Fields that no byte touches -/

@[simp] theorem idleStep_cfg (b : Byte) (s : State) : (idleStep b s).cfg = s.cfg := by
  unfold idleStep; split_ifs <;> rfl
@[simp] theorem idleStep_ops (b : Byte) (s : State) : (idleStep b s).ops = s.ops := by
  unfold idleStep; split_ifs <;> rfl
@[simp] theorem idleStep_out (b : Byte) (s : State) : (idleStep b s).out = s.out := by
  unfold idleStep; split_ifs <;> rfl
@[simp] theorem idleStep_body (b : Byte) (s : State) : (idleStep b s).body = s.body := by
  unfold idleStep; split_ifs <;> rfl

@[simp] theorem takeByte_cfg (b : Byte) (s : State) : (takeByte b s).cfg = s.cfg := by
  unfold takeByte gotCStep inBodyStep discardStep; split <;> (try split_ifs) <;> simp
@[simp] theorem takeByte_ops (b : Byte) (s : State) : (takeByte b s).ops = s.ops := by
  unfold takeByte gotCStep inBodyStep discardStep; split <;> (try split_ifs) <;> simp
@[simp] theorem takeByte_out (b : Byte) (s : State) : (takeByte b s).out = s.out := by
  unfold takeByte gotCStep inBodyStep discardStep; split <;> (try split_ifs) <;> simp

/-! ### The cases of taking a byte -/

/-- Everything `IDLE_STEP` can do: it emits one event and stays, or takes a `'c'` and emits nothing. -/
theorem idleStep_cases (b : Byte) (s : State) :
    (∃ ev, idleStep b s = s.emit ev ∧ ev.fitsIn 0 = true) ∨
    (b = cByte ∧ idleStep b s = { s with frState := .gotC }) := by
  unfold idleStep
  split_ifs with h1 h2 h3
  · exact .inl ⟨_, rfl, rfl⟩
  · exact .inl ⟨_, rfl, rfl⟩
  · exact .inr ⟨h3, rfl⟩
  · exact .inl ⟨_, rfl, rfl⟩

/-- Taking a byte only appends to the queue, and what it appends is `emittedBy`. -/
theorem takeByte_evq (b : Byte) (s : State) : (takeByte b s).evq = s.evq ++ emittedBy b s := by
  have idle : ∀ t : State, ∃ es, (idleStep b t).evq = t.evq ++ es := fun t => by
    rcases idleStep_cases b t with ⟨ev, h, -⟩ | ⟨-, h⟩
    · exact ⟨[ev], by rw [h]; rfl⟩
    · exact ⟨[], by rw [h]; simp⟩
  have : ∃ es, (takeByte b s).evq = s.evq ++ es := by
    unfold takeByte gotCStep inBodyStep discardStep
    split
    · exact idle s
    · split_ifs
      · exact ⟨[], by simp⟩
      · obtain ⟨es, h⟩ := idle { s.emit (.junk cByte) with frState := .idle }
        exact ⟨_, by rw [h]; exact List.append_assoc ..⟩
    · split_ifs
      · exact ⟨_, rfl⟩
      · exact ⟨[], by simp⟩
      · exact ⟨_, rfl⟩
    · split_ifs <;> exact ⟨[], by simp⟩
  obtain ⟨es, h⟩ := this
  rw [emittedBy, h, List.drop_left]

/-- Taking a byte with another queue, offers or output port: the same move, the same events. -/
theorem takeByte_congr (b : Byte) (s : State) (q : List Event) (os : List RawOp) (o : Option Output) :
    takeByte b { s with evq := q, ops := os, out := o } =
      { takeByte b s with evq := q ++ emittedBy b s, ops := os, out := o } := by
  have idle : ∀ (c : Config) (f : FrState) (bd : Bytes), ∃ (f' : FrState) (es : List Event),
      ∀ (q : List Event) (os : List RawOp) (o : Option Output),
        idleStep b ⟨c, f, bd, q, os, o⟩ = ⟨c, f', bd, q ++ es, os, o⟩ := fun c f bd => by
    unfold idleStep
    split_ifs
    · exact ⟨f, [.ack], fun _ _ _ => rfl⟩
    · exact ⟨f, [.nack], fun _ _ _ => rfl⟩
    · exact ⟨.gotC, [], fun _ _ _ => by simp⟩
    · exact ⟨f, [.junk b], fun _ _ _ => rfl⟩
  obtain ⟨c, f, bd, q0, os0, o0⟩ := s
  have : ∃ (f' : FrState) (bd' : Bytes) (es : List Event),
      ∀ (q : List Event) (os : List RawOp) (o : Option Output),
        takeByte b ⟨c, f, bd, q, os, o⟩ = ⟨c, f', bd', q ++ es, os, o⟩ := by
    cases f <;> simp only [takeByte]
    · obtain ⟨f', es, h⟩ := idle c .idle bd
      exact ⟨f', bd, es, h⟩
    · unfold gotCStep
      split_ifs
      · exact ⟨.inBody, bd, [], fun _ _ _ => by simp⟩
      · obtain ⟨f', es, h⟩ := idle c .idle bd
        exact ⟨f', bd, .junk cByte :: es, fun q os o => by simp [State.emit, h]⟩
    · unfold inBodyStep
      simp only
      split_ifs
      · exact ⟨.idle, [], [classify bd], fun _ _ _ => rfl⟩
      · exact ⟨.inBody, bd ++ [b], [], fun _ _ _ => by simp⟩
      · exact ⟨.discard, [], [.frameError .overflow], fun _ _ _ => rfl⟩
    · unfold discardStep
      split_ifs
      · exact ⟨.idle, bd, [], fun _ _ _ => by simp⟩
      · exact ⟨.discard, bd, [], fun _ _ _ => by simp⟩
  obtain ⟨f', bd', es, h⟩ := this
  simp [emittedBy, h]

/-- The events of a byte depend on the case state, the body and `BODY_MAX` alone. -/
theorem emittedBy_congr (b : Byte) (s : State) (q : List Event) (os : List RawOp) (o : Option Output) :
    emittedBy b { s with evq := q, ops := os, out := o } = emittedBy b s := by
  have h := takeByte_evq b { s with evq := q, ops := os, out := o }
  rw [takeByte_congr] at h
  exact (List.append_cancel_left h).symm

/-- What a byte may do to the case state, the body and the queue: one disjunct for each branch of R113 to R117. -/
def ByteMove (b : Byte) (s : State) (f : FrState) (bd : Bytes) (es : List Event) : Prop :=
  (s.frState = .idle ∧ f = .idle ∧ bd = s.body ∧ ∃ ev, es = [ev] ∧ ev.fitsIn 0 = true) ∨
  (s.frState = .idle ∧ b = cByte ∧ f = .gotC ∧ bd = s.body ∧ es = []) ∨
  (s.frState = .gotC ∧ b = semiByte ∧ f = .inBody ∧ bd = s.body ∧ es = []) ∨
  (s.frState = .gotC ∧ b ≠ semiByte ∧ f = .idle ∧ bd = s.body ∧
    ∃ ev, es = [.junk cByte, ev] ∧ ev.fitsIn 0 = true) ∨
  (s.frState = .gotC ∧ b = cByte ∧ f = .gotC ∧ bd = s.body ∧ es = [.junk cByte]) ∨
  (s.frState = .inBody ∧ b = lfByte ∧ f = .idle ∧ bd = [] ∧ es = [classify s.body]) ∨
  (s.frState = .inBody ∧ b ≠ lfByte ∧ s.body.length < s.cfg.bodyMax ∧ f = .inBody ∧ bd = s.body ++ [b] ∧ es = []) ∨
  (s.frState = .inBody ∧ b ≠ lfByte ∧ s.cfg.bodyMax ≤ s.body.length ∧ f = .discard ∧ bd = [] ∧
    es = [.frameError .overflow]) ∨
  (s.frState = .discard ∧ b = lfByte ∧ f = .idle ∧ bd = s.body ∧ es = []) ∨
  (s.frState = .discard ∧ b ≠ lfByte ∧ f = .discard ∧ bd = s.body ∧ es = [])

/-- Taking a byte is one of the moves, and `emittedBy` are its events. -/
theorem takeByte_cases (b : Byte) (s : State) : ∃ f bd,
    takeByte b s = { s with frState := f, body := bd, evq := s.evq ++ emittedBy b s } ∧
      ByteMove b s f bd (emittedBy b s) := by
  suffices h : ∃ f bd es, takeByte b s = { s with frState := f, body := bd, evq := s.evq ++ es } ∧
      ByteMove b s f bd es by
    obtain ⟨f, bd, es, h, hm⟩ := h
    have he : emittedBy b s = es := by rw [emittedBy, h, List.drop_left]
    exact ⟨f, bd, by rw [he]; exact h, by rw [he]; exact hm⟩
  obtain ⟨c, f, bd, q, os, o⟩ := s
  cases f <;> simp only [takeByte, ByteMove, reduceCtorEq, false_and, true_and, false_or, or_false]
  · rcases idleStep_cases b ⟨c, .idle, bd, q, os, o⟩ with ⟨ev, h, hf⟩ | ⟨hb, h⟩
    · exact ⟨.idle, bd, [ev], h, .inl ⟨rfl, rfl, ev, rfl, hf⟩⟩
    · exact ⟨.gotC, bd, [], by rw [h]; simp, .inr ⟨hb, rfl, rfl, rfl⟩⟩
  · unfold gotCStep
    split_ifs with hb
    · exact ⟨.inBody, bd, [], by simp, .inl ⟨hb, rfl, rfl, rfl⟩⟩
    · rcases idleStep_cases b ⟨c, .idle, bd, q ++ [.junk cByte], os, o⟩ with ⟨ev, h, hf⟩ | ⟨hc, h⟩
      · exact ⟨.idle, bd, [.junk cByte, ev], h.trans (by simp [State.emit]), .inr (.inl ⟨hb, rfl, rfl, ev, rfl, hf⟩)⟩
      · exact ⟨.gotC, bd, [.junk cByte], h, .inr (.inr ⟨hc, rfl, rfl, rfl⟩)⟩
  · unfold inBodyStep
    split_ifs with hb hl
    · exact ⟨.idle, [], [classify bd], rfl, .inl ⟨hb, rfl, rfl, rfl⟩⟩
    · exact ⟨.inBody, bd ++ [b], [], by simp, .inr (.inl ⟨hb, hl, rfl, rfl, rfl⟩)⟩
    · exact ⟨.discard, [], [.frameError .overflow], rfl, .inr (.inr ⟨hb, Nat.not_lt.mp hl, rfl, rfl, rfl⟩)⟩
  · unfold discardStep
    split_ifs with hb
    · exact ⟨.idle, bd, [], by simp, .inl ⟨hb, rfl, rfl, rfl⟩⟩
    · exact ⟨.discard, bd, [], by simp, .inr ⟨hb, rfl, rfl, rfl⟩⟩

/-! ### What the operations answer -/

theorem exec_pushByte_ready (b : Byte) (s : State) (h : s.inReady = true) :
    exec (.pushByte b) s = .next { takeByte b s with out := none } := by
  simp [exec, execPushByte, h]

theorem exec_pushByte_held (b : Byte) (s : State) (h : s.inReady = false) :
    exec (.pushByte b) s = .next { s with out := some (.held .pushNotReady) } := by
  simp [exec, execPushByte, h, State.hold]

theorem exec_popEvent_nil (s : State) (h : s.evq = []) :
    exec .popEvent s = .next { s with out := some (.held .popEmpty) } := by
  simp [exec, execPopEvent, h, State.hold]

theorem exec_popEvent_cons (s : State) (ev : Event) (rest : List Event) (h : s.evq = ev :: rest) :
    exec .popEvent s = .next { s with evq := rest, out := some (.popped ev) } := by
  simp [exec, execPopEvent, h]

theorem exec_reset (s : State) : exec .reset s = .next { s.clear with out := none } := rfl

/-- A codec operation answers on the output port or is refused for its payload's length; nothing else. -/
theorem exec_codec_cases (i : Instr) (s : State) (h : i.isCodec = true) :
    (∃ o, exec i s = .next { s with out := some o } ∧ o.popped? = none) ∨ exec i s = .refused .payloadTooLong := by
  cases i with
  | frameEncode cid rcp payload =>
    simp only [exec, execFrameEncode]
    split_ifs
    · exact .inl ⟨_, rfl, rfl⟩
    · exact .inr rfl
  | pushByte b => cases h
  | popEvent => cases h
  | reset => cases h
  | _ => exact .inl ⟨_, rfl, rfl⟩

theorem eventsOf_codec (i : Instr) (s : State) (h : i.isCodec = true) : eventsOf s i = [] := by
  cases i <;> first | rfl | cases h

theorem inReady_iff (s : State) : s.inReady = true ↔ s.evq.length + 2 ≤ s.cfg.evqDepth := by
  simp [State.inReady]

theorem evValid_iff (s : State) : s.evValid = true ↔ s.evq ≠ [] := by
  simp [State.evValid, Nat.one_le_iff_ne_zero]

/-! ### The step -/

theorem step_nil (s : State) (h : s.ops = []) : step s = .next { s with out := none } := by
  simp [step, h]

theorem step_cons_ok (s : State) (o : RawOp) (rest : List RawOp) (i : Instr) (h : s.ops = o :: rest)
    (hd : decode o = .ok i) : step s = exec i { s with ops := rest } := by
  simp [step, h, hd]

theorem step_cons_error (s : State) (o : RawOp) (rest : List RawOp) (e : DecodeError) (h : s.ops = o :: rest)
    (hd : decode o = .error e) : step s = .refused (refusalOf e) := by
  simp [step, h, hd]

end Sys2Proof.Machine
end

