-- ==== Sys2Proof/Laws/Runs.lean ====
section
/-! SUPPORT. Small facts about runs, the cut at LF and the payload bound, for the claims about whole byte lists. -/

namespace Sys2Proof.Machine

theorem after_append (as bs : List Instr) (s : State) : after (as ++ bs) s = after bs (after as s) := by
  induction as generalizing s with
  | nil => rfl
  | cons i is ih => simp [after, ih]

@[simp] theorem after_nil (s : State) : after [] s = s := rfl
@[simp] theorem after_cons (i : Instr) (is : List Instr) (s : State) :
    after (i :: is) s = after is (nextOr s (exec i s)) := rfl

/-! ### `PUSH_STR`, turn by turn -/

@[simp] theorem pushStr_no_turn (bs : Bytes) (s : State) : pushStr [] bs s = ([], bs) := by
  cases bs <;> rfl

@[simp] theorem pushStr_other (i : Instr) (ts : List Turn) (bs : Bytes) (s : State) :
    pushStr (.other i :: ts) bs s =
      (i :: (pushStr ts bs (nextOr s (exec i s))).1, (pushStr ts bs (nextOr s (exec i s))).2) := by
  cases bs <;> rfl

@[simp] theorem pushStr_done (ts : List Turn) (s : State) :
    pushStr (.own :: ts) [] s = pushStr ts [] s := rfl

/-- A ready reader takes the byte, and the next one is offered. -/
theorem pushStr_ready (ts : List Turn) (b : Byte) (bs : Bytes) (s : State) (h : s.inReady = true) :
    pushStr (.own :: ts) (b :: bs) s =
      (.pushByte b :: (pushStr ts bs { takeByte b s with out := none }).1,
        (pushStr ts bs { takeByte b s with out := none }).2) := by
  simp [pushStr, h, exec_pushByte_ready]

/-- A held byte is offered again, before the bytes after it. -/
theorem pushStr_held (ts : List Turn) (b : Byte) (bs : Bytes) (s : State) (h : s.inReady = false) :
    pushStr (.own :: ts) (b :: bs) s =
      (.pushByte b :: (pushStr ts (b :: bs) { s with out := some (.held .pushNotReady) }).1,
        (pushStr ts (b :: bs) { s with out := some (.held .pushNotReady) }).2) := by
  simp [pushStr, h, exec_pushByte_held]

/-- Later turns go on with the bytes that the earlier ones left. -/
theorem pushStr_append (ts us : List Turn) (bs : Bytes) (s : State) :
    pushStr (ts ++ us) bs s =
      ((pushStr ts bs s).1 ++ (pushStr us (pushStr ts bs s).2 (after (pushStr ts bs s).1 s)).1,
        (pushStr us (pushStr ts bs s).2 (after (pushStr ts bs s).1 s)).2) := by
  induction ts generalizing bs s with
  | nil => simp
  | cons t ts ih =>
    cases t with
    | other i => simp [ih]
    | own =>
      cases bs with
      | nil => simp [ih]
      | cons b bs => simp [pushStr, ih]

/-! ### `POP_ALL`, turn by turn -/

@[simp] theorem popAll_no_turn (s : State) : popAll [] s = ([], false) := rfl

@[simp] theorem popAll_other (i : Instr) (ts : List Turn) (s : State) :
    popAll (.other i :: ts) s =
      (i :: (popAll ts (nextOr s (exec i s))).1, (popAll ts (nextOr s (exec i s))).2) := rfl

/-- With no event queued it is at its end. -/
theorem popAll_own_nil (ts : List Turn) (s : State) (h : s.evq = []) : popAll (.own :: ts) s = ([], true) := by
  simp [popAll, State.evValid, h]

/-- With an event queued it pops the oldest and goes on. -/
theorem popAll_own_cons (ts : List Turn) (s : State) (ev : Event) (rest : List Event) (h : s.evq = ev :: rest) :
    popAll (.own :: ts) s =
      (.popEvent :: (popAll ts { s with evq := rest, out := some (.popped ev) }).1,
        (popAll ts { s with evq := rest, out := some (.popped ev) }).2) := by
  simp [popAll, State.evValid, h, exec_popEvent_cons s ev rest h]

/-- It ends only on an empty queue. -/
theorem popAll_end_evq (ts : List Turn) (s : State) (h : (popAll ts s).2 = true) :
    (after (popAll ts s).1 s).evq = [] := by
  induction ts generalizing s with
  | nil => simp at h
  | cons t ts ih =>
    cases t with
    | other i => exact ih _ h
    | own =>
      cases hq : s.evq with
      | nil => simpa [popAll_own_nil ts s hq] using hq
      | cons ev rest =>
        rw [popAll_own_cons ts s ev rest hq] at h ⊢
        simpa [exec_popEvent_cons s ev rest hq] using ih _ h

/-- Its operations are pops and those of the other agents. -/
theorem popAll_mem (i : Instr) (ts : List Turn) (s : State) (h : i ∈ (popAll ts s).1) :
    i = .popEvent ∨ Turn.other i ∈ ts := by
  induction ts generalizing s with
  | nil => cases h
  | cons t ts ih =>
    cases t with
    | other j =>
      rcases List.mem_cons.mp h with rfl | h
      · simp
      · rcases ih _ h with h | h <;> simp [h]
    | own =>
      cases hq : s.evq with
      | nil => rw [popAll_own_nil ts s hq] at h; cases h
      | cons ev rest =>
        rw [popAll_own_cons ts s ev rest hq] at h
        rcases List.mem_cons.mp h with rfl | h
        · simp
        · rcases ih _ h with h | h <;> simp [h]

/-! ### Lines -/

/-- The first LF of a line without one is the LF after it. -/
theorem cutAtLf_append_lf (xs ys : Bytes) (h : lfByte ∉ xs) : cutAtLf (xs ++ lfByte :: ys) = some (xs, ys) := by
  induction xs with
  | nil => simp [cutAtLf]
  | cons b bs ih =>
    simp only [List.mem_cons, not_or] at h
    simp [cutAtLf, Ne.symm h.1, ih h.2]

/-- A cut loses the LF and nothing else, so a scan's fuel always covers the rest. -/
theorem cutAtLf_length (xs pre rest : Bytes) (h : cutAtLf xs = some (pre, rest)) :
    pre.length + rest.length + 1 = xs.length := by
  induction xs generalizing pre with
  | nil => simp [cutAtLf] at h
  | cons b bs ih =>
    by_cases hb : b = lfByte
    · simp only [cutAtLf, hb, if_true, Option.some.injEq, Prod.mk.injEq] at h
      simp [← h.1, ← h.2]
    · cases hc : cutAtLf bs with
      | none => simp [cutAtLf, hb, hc] at h
      | some p =>
        obtain ⟨p1, p2⟩ := p
        simp only [cutAtLf, hb, if_false, hc, Option.some.injEq, Prod.mk.injEq] at h
        have := ih p1 (by rw [hc, h.2])
        simp [← h.1]
        omega

/-- A payload that fits a bound fits every larger one. -/
theorem fitsIn_mono (m n : Nat) (ev : Event) (h : m ≤ n) (he : ev.fitsIn m = true) : ev.fitsIn n = true := by
  cases ev <;> simp_all [Event.fitsIn]
  omega

end Sys2Proof.Machine
end

