-- ==== Sys2Proof/Tests/Slice0.lean ====
section
/-! SUPPORT. The model's own tests. Expected results are the vectors of `95_test_vectors.md` (named V…) or are written
out from the rule named; the witnesses show states and operands that meet the hypotheses of the statements in
`Certificates/Slice0/Obligations.lean`. -/

namespace Sys2Proof.Tests
open Sys2Proof.Machine

/-- A small state: `BODY_MAX = 8` (V37), a given queue depth, nothing offered. -/
def mk (depth : Nat) (f : FrState) (body : Bytes) (evq : List Event) : State :=
  { cfg := { bodyMax := 8, evqDepth := depth, txPayloadMax := 16 }, frState := f, body := body, evq := evq,
    ops := [], out := none }

/-- The state an outcome answers, if it answers one. -/
def nextState : Host.Outcome State Fault Refusal → Option State
  | .next s => some s
  | .fault _ => none
  | .refused _ => none

/-- The refusal an outcome answers, if it answers one. -/
def refusal : Host.Outcome State Fault Refusal → Option Refusal
  | .next _ => none
  | .fault _ => none
  | .refused r => some r

/-- Characters as bytes, for the vectors' strings. -/
def str (s : String) : Bytes := s.toList.map fun c => BitVec.ofNat 8 c.toNat

/-! ### Well-formedness: each check refuses an ill-formed term -/

theorem test_wellFormed_accepts : (RawOp.mk 0x2#4 [.num 0x1F, .num 15]).wellFormed = true := by decide
theorem test_wellFormed_refuses_reserved_code : (RawOp.mk 0xD#4 []).wellFormed = false := by decide
theorem test_wellFormed_refuses_missing_operand : (RawOp.mk 0x2#4 [.num 0]).wellFormed = false := by decide
theorem test_wellFormed_refuses_extra_operand : (RawOp.mk 0xB#4 [.num 0]).wellFormed = false := by decide
theorem test_wellFormed_refuses_wrong_kind : (RawOp.mk 0x1#4 [.bytes []]).wellFormed = false := by decide
theorem test_wellFormed_refuses_wide_cid : (RawOp.mk 0x2#4 [.num 0x20, .num 1]).wellFormed = false := by decide
theorem test_wellFormed_refuses_long_payload :
    (Instr.frameEncode 0#5 5#4 (List.replicate 17 0x30#8)).wellFormed ⟨8, 2, 16⟩ = false ∧
    (Instr.frameEncode 0#5 5#4 (List.replicate 16 0x30#8)).wellFormed ⟨8, 2, 16⟩ = true := by decide
theorem test_config_refuses_each_bound :
    (Config.mk 5 2 16).ok = false ∧ (Config.mk 6 1 16).ok = false ∧ (Config.mk 6 2 15).ok = false ∧
    (Config.mk 6 2 16).ok = true := by decide

/-! ### Decoding: one offer per operation, written out from R60's table -/

theorem test_decode_cwDecode : decode ⟨0b0001#4, [.num 0x04A2]⟩ = .ok (.cwDecode 0x04A2#16) := by decide
theorem test_decode_cwEncode : decode ⟨0b0010#4, [.num 0x14, .num 3]⟩ = .ok (.cwEncode 0x14#5 3#4) := by decide
theorem test_decode_hex4Render : decode ⟨0b0011#4, [.num 0x01F0]⟩ = .ok (.hex4Render 0x01F0#16) := by decide
theorem test_decode_hex4Parse : decode ⟨0b0100#4, [.bytes [0x30#8]]⟩ = .ok (.hex4Parse [0x30#8]) := by decide
theorem test_decode_frameEncode :
    decode ⟨0b0101#4, [.num 0, .num 5, .bytes [0x30#8, 0x33#8]]⟩ = .ok (.frameEncode 0#5 5#4 [0x30#8, 0x33#8]) := by
  decide
theorem test_decode_lineClassify : decode ⟨0b0110#4, [.bytes [0x0D#8]]⟩ = .ok (.lineClassify [0x0D#8]) := by decide
theorem test_decode_allowEncode : decode ⟨0b0111#4, [.num 1, .num 3]⟩ = .ok (.allowEncode true 3#8) := by decide
theorem test_decode_statusDecode : decode ⟨0b1000#4, [.bytes [0x35#8]]⟩ = .ok (.statusDecode [0x35#8]) := by decide
theorem test_decode_timeEncode :
    decode ⟨0b1001#4, [.num 2026, .num 11, .num 12, .num 3, .num 21, .num 2, .num 59]⟩ =
      .ok (.timeEncode 2026#16 11#8 12#8 3#8 21#8 2#8 59#8) := by decide
theorem test_decode_pushByte : decode ⟨0b1010#4, [.num 0xFF]⟩ = .ok (.pushByte 0xFF#8) := by decide
theorem test_decode_popEvent : decode ⟨0b1011#4, []⟩ = .ok .popEvent := by decide
theorem test_decode_reset : decode ⟨0b1100#4, []⟩ = .ok .reset := by decide
/-- V12, V31: the nearest wide operands. -/
theorem test_decode_refuses_wide :
    decode ⟨0x2#4, [.num 0x20, .num 1]⟩ = .error .operandWidth ∧
    decode ⟨0x2#4, [.num 0x00, .num 16]⟩ = .error .operandWidth ∧
    decode ⟨0x7#4, [.num 1, .num 256]⟩ = .error .operandWidth := by decide
/-- V41 and R62. -/
theorem test_decode_refuses_reserved :
    decode ⟨0x0#4, []⟩ = .error .reservedOp ∧ decode ⟨0xD#4, []⟩ = .error .reservedOp ∧
    decode ⟨0xE#4, []⟩ = .error .reservedOp ∧ decode ⟨0xF#4, []⟩ = .error .reservedOp := by decide
theorem test_table_words_run_after_reset :
    decodeTableWord 8 0x5 = some (.frameEncode 0#5 0#4 []) ∧
    (nextState (step (State.reset.withFetchWord 8 0xA))).isSome = true ∧
    (nextState (step (State.reset.withFetchWord 8 0xB))).isSome = true ∧
    refusal (step (State.reset.withFetchWord 8 0xD)) = some .reservedOp := by decide
/-- The two transcriptions of R60's format column agree. -/
theorem test_every_assigned_code_has_a_format :
    ∀ op : BitVec 4, (formatOf op).isSome = (decodeTableWord 8 op.toNat).isSome := by decide

/-! ### One step of each operation, at most two tests each -/

/-- V10. -/
theorem test_cwDecode_alarm : outputOf (.cwDecode 0x04A2#16) State.reset =
    some (.fields ⟨true, false, 5#4, 2#5, 0x04A2#16⟩) := by decide
/-- V10: reserved bits 11 to 15 set. -/
theorem test_cwDecode_reserved_bits : outputOf (.cwDecode 0xF9EF#16) State.reset =
    some (.fields ⟨false, false, 15#4, 15#5, 0xF9EF#16⟩) := by decide
/-- V11. -/
theorem test_cwEncode_directed : outputOf (.cwEncode 0x14#5 3#4) State.reset = some (.word 0x0074#16) := by decide
/-- V11: a broadcast id with bit 4. -/
theorem test_cwEncode_broadcast : outputOf (.cwEncode 0x1F#5 0#4) State.reset = some (.word 0x001F#16) := by decide
/-- V13. -/
theorem test_hex4Render : outputOf (.hex4Render 0x01F0#16) State.reset =
    some (.bytes [0x30#8, 0x31#8, 0x46#8, 0x30#8]) := by decide
/-- V14. -/
theorem test_hex4Parse_lowercase : outputOf (.hex4Parse (str "00b0")) State.reset =
    some (.parsed (some 0x00B0#16)) := by decide
/-- V14. -/
theorem test_hex4Parse_refuses : outputOf (.hex4Parse (str "04G2")) State.reset = some (.parsed none) ∧
    outputOf (.hex4Parse (str "000A2")) State.reset = some (.parsed none) := by decide
/-- V15. -/
theorem test_frameEncode : outputOf (.frameEncode 0#5 5#4 (str "03")) State.reset = some (.bytes
    [0x63#8, 0x3B#8, 0x30#8, 0x30#8, 0x42#8, 0x30#8, 0x3B#8, 0x30#8, 0x33#8, 0x0D#8, 0x0A#8]) := by decide
/-- V19. -/
theorem test_frameEncode_too_long :
    refusal (exec (.frameEncode 0#5 5#4 (List.replicate 17 0x30#8)) (mk 2 .idle [] [])) =
      some .payloadTooLong := by decide
/-- V20: an ACK byte inside the payload. -/
theorem test_lineClassify_text :
    outputOf (.lineClassify (str "00A2;0" ++ [0x06#8] ++ str "7" ++ [0x0D#8])) State.reset =
      some (.classified (.text 0x00A2#16 [0x30#8, 0x06#8, 0x37#8])) := by decide
/-- V20: three faults, then two, then a short field. -/
theorem test_lineClassify_errors :
    outputOf (.lineClassify (str "0A2;1;2")) State.reset = some (.classified (.frameError .noCr)) ∧
    outputOf (.lineClassify (str "0A2;1;2" ++ [0x0D#8])) State.reset =
      some (.classified (.frameError .fieldCount)) ∧
    outputOf (.lineClassify (str "0A2;07" ++ [0x0D#8])) State.reset =
      some (.classified (.frameError .badHex)) := by decide
/-- V30. -/
theorem test_allowEncode_grant : outputOf (.allowEncode true 0xAB#8) State.reset = some (.bytes (str "AB")) := by
  decide
/-- V30. -/
theorem test_allowEncode_deny : outputOf (.allowEncode false 3#8) State.reset = some (.bytes []) := by decide
/-- V32. -/
theorem test_statusDecode_valid : outputOf (.statusDecode (str "06")) State.reset =
    some (.status (some ⟨0x0006#16, false, true, true⟩)) := by decide
/-- V32. -/
theorem test_statusDecode_invalid : outputOf (.statusDecode (str "12345")) State.reset = some (.status none) ∧
    outputOf (.statusDecode []) State.reset = some (.status none) := by decide
/-- V33: no range check. -/
theorem test_timeEncode : outputOf (.timeEncode 0xFFFF#16 0#8 32#8 0#8 255#8 0#8 0#8) State.reset =
    some (.bytes (str "FFFF002000FF0000")) := by decide
/-- V36: two events from the second byte of `c` ACK. -/
theorem test_pushByte_two_events :
    nextState (exec (.pushByte 0x06#8) (mk 2 .gotC [] [])) =
      some (mk 2 .idle [] [.junk 0x63#8, .ack]) := by decide
/-- V37: the ninth body byte overflows, and an LF then would not have. -/
theorem test_pushByte_overflow :
    nextState (exec (.pushByte 0x0D#8) (mk 4 .inBody (str "0000;abc") [])) =
      some (mk 4 .discard [] [.frameError .overflow]) ∧
    nextState (exec (.pushByte 0x0A#8) (mk 4 .inBody (str "0000;ab" ++ [0x0D#8]) [])) =
      some (mk 4 .idle [] [.text 0#16 (str "ab")]) := by decide
/-- V39: with `EVQ_DEPTH = 2` a queued event holds the producer. -/
theorem test_pushByte_holds : outputOf (.pushByte 0x63#8) (mk 2 .idle [] [.ack]) =
    some (.held .pushNotReady) := by decide
/-- R119's example. -/
theorem test_popEvent : nextState (exec .popEvent (mk 4 .idle [] [.junk 0xFF#8, .text 0#16 []])) =
    some { mk 4 .idle [] [.text 0#16 []] with out := some (.popped (.junk 0xFF#8)) } := by decide
/-- R120's example. -/
theorem test_reset : nextState (exec .reset (mk 4 .inBody (str "00A") [.ack])) = some (mk 4 .idle [] []) := by decide
/-- V5, V6, V8. -/
theorem test_pseudo_operations :
    outputOf (replyGrant 5#4 3#8) State.reset = some (.bytes (str "c;00B0;03" ++ [0x0D#8, 0x0A#8])) ∧
    outputOf (replyGrant 0#4 3#8) State.reset = some (.bytes (str "c;0000;03" ++ [0x0D#8, 0x0A#8])) ∧
    outputOf (replyDeny 6#4) State.reset = some (.bytes (str "c;00D0;" ++ [0x0D#8, 0x0A#8])) ∧
    outputOf (hello 2026#16 11#8 11#8 3#8 21#8 2#8 0#8) State.reset =
      some (.bytes (str "c;0014;07EA0B0B03150200" ++ [0x0D#8, 0x0A#8])) := by decide
/-- P3, rows 1 to 4: with `EVQ_DEPTH = 2` the byte that is held after an ACK is taken after the pop, before the bytes
after it. -/
theorem test_pushStr_holds_until_ready :
    pushStr [.own, .own, .other .popEvent, .own, .own] [0x06#8, 0x63#8, 0x3B#8]
        (mk 2 .idle [] []) =
      ([.pushByte 0x06#8, .pushByte 0x63#8, .popEvent, .pushByte 0x63#8, .pushByte 0x3B#8], []) := by decide
/-- R65: without a pop the byte stays held. -/
theorem test_pushStr_stays_held :
    (pushStr [.own, .own] [0x63#8, 0x3B#8] (mk 2 .idle [] [.ack])).2 = [0x63#8, 0x3B#8] := by decide
/-- R65: an event that comes in while `POP_ALL` is under way is popped too. -/
theorem test_popAll_takes_later_events :
    popAll [.other (.pushByte 0x15#8), .own, .own, .own] (mk 4 .idle [] [.ack]) =
      ([.pushByte 0x15#8, .popEvent, .popEvent], true) ∧
    (popAll [.other (.pushByte 0x15#8), .own] (mk 4 .idle [] [.ack])).2 = false := by decide
/-- R65: after a `RESET` there is nothing left to pop. -/
theorem test_popAll_ends_after_reset :
    popAll [.other .reset, .own] (mk 4 .idle [] [.ack]) = ([.reset], true) := by decide
/-- R122's cases. -/
theorem test_scan :
    scan (str "cc;00A2;01" ++ [0x0D#8, 0x0A#8, 0x06#8] ++ str "c;00") =
      [.junk 0x63#8, .text 0x00A2#16 (str "01"), .ack] := by decide

/-! ### Witnesses: the hypotheses of each statement can be met, each clause at a boundary where it has one -/

/-- An offer that decodes and one of each refusal. -/
theorem witness_offers :
    decode ⟨0x2#4, [.num 0x1F, .num 15]⟩ = .ok (.cwEncode 0x1F#5 15#4) ∧
    (formatOf 0x2#4 = some .fmtCR ∧ shapeOk Format.fmtCR.types [.num 0x20, .num 1] = true ∧
      widthsOk Format.fmtCR.types [.num 0x20, .num 1] = false) ∧
    decode ⟨0x2#4, [.num 0]⟩ = .error .operandFormat := by decide
theorem witness_StepPerformsTheDecodedOffer :
    ({ mk 2 .idle [] [] with ops := [⟨0xC#4, []⟩] } : State).ops = ⟨0xC#4, []⟩ :: [] ∧
    decode ⟨0xC#4, []⟩ = .ok .reset := by decide
theorem witness_ReservedCodesAreRefused :
    refusal (step { mk 2 .idle [] [] with ops := [⟨0x0#4, [.num 7]⟩] }) = some .reservedOp ∧
    (0x1#4 : BitVec 4) ≠ 0x0#4 ∧ (0x1#4 : BitVec 4) ≠ 0xD#4 ∧ (0x1#4 : BitVec 4) ≠ 0xE#4 ∧
    (0x1#4 : BitVec 4) ≠ 0xF#4 ∧ (0xC#4 : BitVec 4) ≠ 0xD#4 := by decide
theorem witness_AbsentInputKeepsTheState : (mk 2 .inBody (str "00") [.ack]).ops = [] := by decide
theorem witness_StepRefusesExactlyForTheListedReasons :
    refusal (step { mk 2 .idle [] [] with ops := [⟨0xF#4, []⟩] }) = some .reservedOp ∧
    refusal (step { mk 2 .idle [] [] with ops := [⟨0xA#4, [.num 256]⟩] }) = some .operandWidth ∧
    refusal (step { mk 2 .idle [] [] with ops := [⟨0xA#4, []⟩] }) = some .operandFormat ∧
    refusal (step { mk 2 .idle [] [] with ops := [⟨0xA#4, [.num 256, .num 0]⟩] }) = some .operandFormat ∧
    refusal (step { mk 2 .idle [] [] with
      ops := [⟨0x5#4, [.num 0, .num 0, .bytes (List.replicate 17 0#8)]⟩] }) = some .payloadTooLong := by decide
theorem witness_EveryWellFormedOperationCompletes :
    (mk 2 .idle [] []).inReady = true ∧ (mk 2 .idle [] [.ack]).evq ≠ [] ∧
    (Instr.frameEncode 0#5 0#4 (List.replicate 16 0#8)).wellFormed (mk 2 .idle [] []).cfg = true ∧
    (Instr.frameEncode 0#5 0#4 (List.replicate 17 0#8)).wellFormed (mk 2 .idle [] []).cfg = false := by decide
theorem witness_FrameEncodeBuildsTheFrame :
    (List.replicate 16 0x30#8).length ≤ (mk 2 .idle [] []).cfg.txPayloadMax ∧
    (mk 2 .idle [] []).cfg.txPayloadMax < (List.replicate 17 0x30#8).length := by decide
theorem witness_LineClassifyReportsTheFirstError :
    classify [] = .frameError .noCr ∧ classify [0x0D#8] = .frameError .fieldCount ∧
    (([0x0D#8] : Bytes) = [] ++ [0x0D#8] ∧ ([] : Bytes).count 0x3B#8 ≠ 1) ∧
    ((0x3B#8 : Byte) ∉ ([] : Bytes) ∧ outputOf (.hex4Parse []) State.reset = some (.parsed none)) ∧
    ((0x3B#8 : Byte) ∉ str "0000" ∧
      outputOf (.hex4Parse (str "0000")) State.reset = some (.parsed (some 0#16))) := by decide
theorem witness_StatusDecodeReadsTheBitmask :
    (statusOf (str "F")).isSome = true ∧ (statusOf (str "FFFF")).isSome = true ∧ statusOf [] = none := by decide
theorem witness_Hex4ParseReadsFourDigits : parseHex4 (str "fFfF") = some 0xFFFF#16 := by decide
theorem witness_CodecOutputsDependOnOperandsOnly :
    (Instr.cwDecode 0#16).isCodec = true ∧ (mk 2 .idle [] []).cfg = (mk 2 .discard [] [.ack]).cfg := by decide
theorem witness_WordRoundTrip_clauses : (1#4 : DoorId) ≠ 0#4 ∧ (0#4 : DoorId) = 0#4 := by decide
theorem witness_ReservedWordBitsHaveNoEffect :
    (0x0200#16 &&& 0xFA00#16 = 0x0200#16) ∧ (0xFA00#16 &&& 0xFA00#16 = 0xFA00#16) ∧
    (0x3B#8 : Byte) ∉ ([] : Bytes) := by decide
theorem witness_HexRoundTrip :
    outputOf (.hex4Parse (str "00B0")) State.reset = some (.parsed (some 0x00B0#16)) ∧
    (str "00B0").map hexVal = (str "00b0").map hexVal := by decide
theorem witness_FrameRoundTrip :
    (str "03").length ≤ State.reset.cfg.txPayloadMax ∧ (0x3B#8 : Byte) ∉ str "03" ∧ (0x0A#8 : Byte) ∉ str "03" ∧
    (0x3B#8 : Byte) ∈ str "1;2" := by decide
theorem witness_EncodedPayloadsAreDigitsAndRoundTrip :
    outputOf (.allowEncode true 3#8) State.reset = some (.bytes (str "03")) ∧
    outputOf (.timeEncode 0#16 0#8 0#8 0#8 0#8 0#8 0#8) State.reset = some (.bytes (List.replicate 16 0x30#8)) ∧
    State.reset.cfg.ok = true := by decide
theorem witness_legal_parameters : (mk 2 .idle [] []).cfg.ok = true ∧ Config.vectors.ok = true ∧
    (Config.mk 6 2 16).ok = true := by decide
theorem witness_PushByteAtLineStart :
    (mk 2 .idle [] []).frState = .idle ∧ (mk 2 .idle [] []).inReady = true ∧
    (0xFF#8 : Byte) ≠ 0x06#8 ∧ (0xFF#8 : Byte) ≠ 0x15#8 ∧ (0xFF#8 : Byte) ≠ 0x63#8 := by decide
theorem witness_PushByteAfterC :
    (mk 2 .gotC [] []).frState = .gotC ∧ (mk 2 .gotC [] []).inReady = true ∧ (0x0A#8 : Byte) ≠ 0x3B#8 ∧
    (0x0A#8 : Byte) ≠ 0x06#8 ∧ (0x0A#8 : Byte) ≠ 0x15#8 ∧ (0x0A#8 : Byte) ≠ 0x63#8 := by decide
/-- The last byte that fits and the first that does not. -/
theorem witness_PushByteInsideALine :
    (mk 2 .inBody (str "0000;ab") []).inReady = true ∧ (0x0D#8 : Byte) ≠ 0x0A#8 ∧
    (str "0000;ab").length < (mk 2 .inBody [] []).cfg.bodyMax ∧
    (mk 2 .inBody [] []).cfg.bodyMax ≤ (str "0000;abc").length := by decide
theorem witness_PushLfEndsTheLine :
    (mk 2 .inBody [] []).frState = .inBody ∧ (mk 2 .inBody [] []).inReady = true := by decide
theorem witness_PushByteWhileDiscarding :
    (mk 2 .discard [] []).frState = .discard ∧ (mk 2 .discard [] []).inReady = true ∧
    (0x06#8 : Byte) ≠ 0x0A#8 := by decide
theorem witness_PopEventHandsOverTheOldest :
    (mk 2 .idle [] [.ack, .nack]).evq = .ack :: [.nack] ∧ (mk 2 .idle [] []).evq = [] := by decide
/-- A full queue is held, and so is one with a single free slot, which one pop then lifts. -/
theorem witness_HoldsChangeNothingAndAreLifted :
    (mk 2 .idle [] [.ack, .nack]).inReady = false ∧ (mk 2 .idle [] [.ack]).inReady = false ∧
    (mk 2 .idle [] [.ack]).evq.length + 1 = (mk 2 .idle [] [.ack]).cfg.evqDepth ∧
    (mk 2 .idle [] []).evValid = false ∧ (mk 2 .idle [] []).inReady = true ∧
    emittedBy 0x06#8 (mk 2 .idle [] []) ≠ [] := by decide
theorem witness_PushEmitsAtMostTwoAndLosesNone :
    (mk 2 .gotC [] []).inReady = true ∧ (emittedBy 0x06#8 (mk 2 .gotC [] [])).length = 2 := by decide
theorem witness_EnabledPushChangesTheReader :
    (nextState (exec (.pushByte 0x06#8) (mk 2 .discard [] []))).isSome = true ∧
    (mk 2 .discard [] []).inReady = true := by decide
theorem witness_EventPortsPresentTheHead :
    (mk 2 .idle [] [.text 0#16 []]).evq = .text 0#16 [] :: [] ∧ (mk 2 .idle [] [.junk 0#8]).evq = .junk 0#8 :: [] ∧
    (mk 2 .idle [] [.frameError .overflow]).evq = .frameError .overflow :: [] ∧
    (mk 2 .idle [] [.ack]).evq = .ack :: [] ∧ (mk 2 .idle [] []).evValid = false := by decide
/-- A state with a part of a line and a queued `TEXT` event whose payload is the longest, and a step from it. -/
theorem witness_invariant_and_step :
    State.Inv { mk 4 .inBody (str "0000;ab" ++ [0x0D#8]) [.text 0#16 (str "ab")] with ops := [⟨0xA#4, [.num 0x0A]⟩] } ∧
    (nextState (step { mk 4 .inBody (str "0000;ab" ++ [0x0D#8]) [.text 0#16 (str "ab")] with
      ops := [⟨0xA#4, [.num 0x0A]⟩] })).isSome = true :=
  ⟨⟨by decide, by decide, by decide, by decide, by decide⟩, by decide⟩
theorem witness_TextPayloadBoundIsTight :
    Event.text 0#16 (str "ab") ∈ (mk 4 .idle [] [.text 0#16 (str "ab")]).evq ∧
    (str "ab").length + 6 = (mk 4 .idle [] []).cfg.bodyMax := by decide
theorem witness_EventsLeaveInEmissionOrder :
    Instr.reset ∉ [Instr.pushByte 0x06#8, .popEvent, .cwDecode 0#16] := by decide
/-- A line of exactly `BODY_MAX` body bytes meets the hypothesis; one byte more does not. -/
theorem witness_FeedEmitsTheReferenceScan :
    (∀ body ∈ textBodies (str "c;0000;ab" ++ [0x0D#8, 0x0A#8]), body.length ≤ (mk 2 .idle [] []).cfg.bodyMax) ∧
    ¬ (∀ body ∈ textBodies (str "c;0000;abcd"), body.length ≤ (mk 2 .idle [] []).cfg.bodyMax) := by decide
theorem witness_SentFrameIsReceived :
    (str "ab").length ≤ (mk 2 .idle [] []).cfg.txPayloadMax ∧
    (str "ab").length + 6 ≤ (mk 2 .idle [] []).cfg.bodyMax ∧
    (0x3B#8 : Byte) ∉ str "ab" ∧ (0x0A#8 : Byte) ∉ str "ab" ∧ (mk 2 .idle [] []).frState = .idle ∧
    (mk 2 .idle [] []).body = [] ∧ (mk 2 .idle [] []).inReady = true := by decide
theorem witness_PushStr :
    (∀ b, Turn.other (.pushByte b) ∉ [Turn.own, .other .popEvent, .other (.cwDecode 0#16)]) ∧
    ((mk 2 .idle [] [.ack]).cfg.ok = true ∧
      (∀ i, Turn.other i ∈ [Turn.own, .other .popEvent, .own, .other (.cwDecode 0#16)] →
        i.isCodec = true ∨ i = .popEvent) ∧
      (pushStr [.own, .other .popEvent, .own, .other (.cwDecode 0#16)] [0x06#8]
        (mk 2 .idle [] [.ack])).2 = []) := by
  refine ⟨by simp, by decide, ?_, by decide⟩
  intro i hi
  simp only [List.mem_cons, Turn.other.injEq, reduceCtorEq, false_or, List.not_mem_nil, or_false] at hi
  rcases hi with rfl | rfl
  · exact .inr rfl
  · exact .inl rfl
theorem witness_PopAll :
    popAll [.own, .other (.pushByte 0x15#8), .own, .own] (mk 4 .idle [] [.ack]) =
      ([.popEvent, .pushByte 0x15#8, .popEvent], true) ∧
    (∀ i, Turn.other i ∈ [Turn.own, .other (.pushByte 0x15#8), .own, .own] → i ≠ .popEvent ∧ i ≠ .reset) ∧
    (popAll [.own] (mk 4 .idle [] [.ack])).2 = false ∧
    ((∀ b, Turn.other (.pushByte b) ∉ [Turn.own, .other .reset, .own]) ∧
      (mk 4 .idle [] [.ack]).evq.length < [Turn.own, .other .reset, .own].count .own) := by
  refine ⟨by decide, ?_, by decide, by simp, by decide⟩
  intro i hi
  simp only [List.mem_cons, Turn.other.injEq, reduceCtorEq, false_or, List.not_mem_nil, or_false] at hi
  subst hi
  exact ⟨nofun, nofun⟩
theorem witness_CoincidingOperationsAreInterleavings :
    (mk 4 .gotC [] [.ack, .nack]).inReady = true ∧ (mk 4 .gotC [] [.ack, .nack]).evq.head? = some .ack := by decide
theorem witness_WithoutPopsTheProducerStaysHeld :
    (mk 2 .inBody [] [.ack]).inReady = false ∧ Instr.popEvent ∉ [Instr.pushByte 0#8, .cwDecode 0#16] ∧
    Instr.reset ∉ [Instr.pushByte 0#8, .cwDecode 0#16] := by decide

end Sys2Proof.Tests
end

section
/-! SUPPORT. What a step that answers can do, said once, and what it means for the queued events. -/

namespace Sys2Proof.Machine

theorem config_ok_iff (c : Config) : c.ok = true ↔ 6 ≤ c.bodyMax ∧ 2 ≤ c.evqDepth ∧ 16 ≤ c.txPayloadMax := by
  simp [Config.ok, and_assoc]

/-- Everything an operation that answers can do: change only the output port, take a byte, pop, or reset. -/
theorem exec_next_cases (i : Instr) (s t : State) (h : exec i s = .next t) :
    (∃ o, t = { s with out := o }) ∨
    (∃ b, i = .pushByte b ∧ s.inReady = true ∧ t = { takeByte b s with out := none }) ∨
    (∃ ev rest, i = .popEvent ∧ s.evq = ev :: rest ∧ t = { s with evq := rest, out := some (.popped ev) }) ∨
    (i = .reset ∧ t = { s.clear with out := none }) := by
  have codec (hi : i.isCodec = true) : ∃ o, t = { s with out := o } := by
    rcases exec_codec_cases i s hi with ⟨o, ho, -⟩ | hr
    · exact ⟨some o, by simpa [ho] using h.symm⟩
    · simp [hr] at h
  cases i with
  | pushByte b =>
    cases hr : s.inReady with
    | true => exact .inr (.inl ⟨b, rfl, rfl, by simpa [exec_pushByte_ready b s hr] using h.symm⟩)
    | false => exact .inl ⟨_, by simpa [exec_pushByte_held b s hr] using h.symm⟩
  | popEvent =>
    rcases hq : s.evq with _ | ⟨ev, rest⟩
    · exact .inl ⟨some (.held .popEmpty), by simpa [exec_popEvent_nil s hq, hq] using h.symm⟩
    · exact .inr (.inr (.inl ⟨ev, rest, rfl, rfl, by simpa [exec_popEvent_cons s ev rest hq] using h.symm⟩))
  | reset => exact .inr (.inr (.inr ⟨rfl, by simpa [exec_reset] using h.symm⟩))
  | _ => exact .inl (codec rfl)

/-- A step that answers has nothing to perform, or performs one operation on the state without its offer. -/
theorem step_next_cases (s t : State) (h : step s = .next t) :
    (s.ops = [] ∧ t = { s with out := none }) ∨
    ∃ o rest i, s.ops = o :: rest ∧ decode o = .ok i ∧ exec i { s with ops := rest } = .next t := by
  cases hops : s.ops with
  | nil => exact .inl ⟨rfl, by simpa [step_nil s hops, hops] using h.symm⟩
  | cons o rest =>
    cases hd : decode o with
    | error e => simp [step_cons_error s o rest e hops hd] at h
    | ok i => exact .inr ⟨o, rest, i, rfl, hd, step_cons_ok s o rest i hops hd ▸ h⟩

/-- The classifier's payload leaves room in its body for four digits, `';'` and CR (R7). -/
theorem classify_fitsIn (body : Bytes) (m : Nat) (h : body.length ≤ m) : (classify body).fitsIn m = true := by
  cases hc : classify body with
  | text w p =>
    have := classify_text_length body w p hc
    simp only [Event.fitsIn, decide_eq_true_eq]
    omega
  | _ => rfl

/-- What a byte emits is the classifier's event for the body (R116) or carries no payload. -/
theorem mem_emittedBy_cases (b : Byte) (s : State) (ev : Event) (hev : ev ∈ emittedBy b s) :
    ev.fitsIn 0 = true ∨ ev = classify s.body := by
  obtain ⟨f, bd, -, hmove⟩ := takeByte_cases b s
  rcases hmove with ⟨-, -, -, e, he, hfit⟩ | ⟨-, -, -, -, he⟩ | ⟨-, -, -, -, he⟩ | ⟨-, -, -, -, e, he, hfit⟩ |
    ⟨-, -, -, -, he⟩ | ⟨-, -, -, -, he⟩ | ⟨-, -, -, -, -, he⟩ | ⟨-, -, -, -, -, he⟩ | ⟨-, -, -, -, he⟩ |
    ⟨-, -, -, -, he⟩ <;> simp only [he, List.mem_cons, List.not_mem_nil, or_false] at hev
  · exact .inl (hev ▸ hfit)
  · rcases hev with rfl | rfl
    exacts [.inl rfl, .inl hfit]
  · exact .inl (hev ▸ rfl)
  · exact .inr hev
  · exact .inl (hev ▸ rfl)

/-- A byte emits no payload beyond the bound while `body` is within its capacity (R7). -/
theorem emittedBy_fitsIn (b : Byte) (s : State) (hbody : s.body.length ≤ s.cfg.bodyMax) :
    ∀ ev ∈ emittedBy b s, ev.fitsIn s.cfg.bodyMax = true := by
  intro ev hev
  rcases mem_emittedBy_cases b s ev hev with hfit | rfl
  · exact fitsIn_mono 0 _ ev (Nat.zero_le _) hfit
  · exact classify_fitsIn s.body _ hbody

/-- An operation keeps every queued payload within the bound (R7). -/
theorem exec_keeps_payload_bound (i : Instr) (s t : State) (h : exec i s = .next t)
    (hbody : s.body.length ≤ s.cfg.bodyMax) (hq : ∀ ev ∈ s.evq, ev.fitsIn s.cfg.bodyMax = true) :
    ∀ ev ∈ t.evq, ev.fitsIn s.cfg.bodyMax = true := by
  rcases exec_next_cases i s t h with ⟨o, rfl⟩ | ⟨b, -, -, rfl⟩ | ⟨ev, rest, -, he, rfl⟩ | ⟨-, rfl⟩
  · exact hq
  · intro ev hev
    rcases List.mem_append.mp (takeByte_evq b s ▸ hev) with hold | hnew
    · exact hq ev hold
    · exact emittedBy_fitsIn b s hbody ev hnew
  · exact fun e hmem => hq e (he ▸ List.mem_cons_of_mem ev hmem)
  · simp

/-- A step keeps every queued payload within the bound (R7). -/
theorem step_keeps_payload_bound (s t : State) (hs : s.Inv) (h : step s = .next t) :
    ∀ ev ∈ t.evq, ev.fitsIn s.cfg.bodyMax = true := by
  rcases step_next_cases s t h with ⟨-, rfl⟩ | ⟨o, rest, i, -, -, hexec⟩
  · exact hs.payload_le
  · exact exec_keeps_payload_bound i { s with ops := rest } t hexec hs.body_le hs.payload_le

end Sys2Proof.Machine
end

section
/-! SUPPORT. Taking a list of bytes with no regard to the queue's depth, and what `feed` makes of it: the consumer's
pops only move events from the queue to the observation (R123). -/

namespace Sys2Proof.Machine

/-- The reader after taking bytes one after another, whether or not it is ready. -/
def takeBytes : Bytes → State → State
  | [], s => s
  | b :: bs, s => takeBytes bs (takeByte b s)

@[simp] theorem takeBytes_nil (s : State) : takeBytes [] s = s := rfl
@[simp] theorem takeBytes_cons (b : Byte) (bs : Bytes) (s : State) :
    takeBytes (b :: bs) s = takeBytes bs (takeByte b s) := rfl

theorem takeBytes_append (xs ys : Bytes) (s : State) : takeBytes (xs ++ ys) s = takeBytes ys (takeBytes xs s) := by
  induction xs generalizing s with
  | nil => rfl
  | cons b bs ih => exact ih (takeByte b s)

@[simp] theorem takeBytes_ops (bs : Bytes) (s : State) : (takeBytes bs s).ops = s.ops := by
  induction bs generalizing s with
  | nil => rfl
  | cons b bs ih => rw [takeBytes_cons, ih, takeByte_ops]

/-- Taking bytes only appends to the queue, and with another queue, offers or output port it makes the same moves and
appends the same events. -/
theorem takeBytes_appends (xs : Bytes) (s : State) : ∃ es, (takeBytes xs s).evq = s.evq ++ es ∧
    ∀ (q : List Event) (os : List RawOp) (o : Option Output),
      takeBytes xs { s with evq := q, ops := os, out := o } =
        { takeBytes xs s with evq := q ++ es, ops := os, out := o } := by
  induction xs generalizing s with
  | nil => exact ⟨[], by simp, fun q os o => by simp⟩
  | cons b bs ih =>
    obtain ⟨es, hevq, hcongr⟩ := ih (takeByte b s)
    refine ⟨emittedBy b s ++ es, ?_, fun q os o => ?_⟩
    · rw [takeBytes_cons, hevq, takeByte_evq, List.append_assoc]
    · rw [takeBytes_cons, takeByte_congr, hcongr, List.append_assoc, takeBytes_cons]

/-- The consumer of R123 takes events from the front of the queue until the reader is ready, and touches nothing else
of it. -/
theorem popWhileHeld_cases (n : Nat) (s : State) (hdepth : 2 ≤ s.cfg.evqDepth) (hn : s.evq.length ≤ n) :
    ∃ popped q o, popWhileHeld n s = (popped, { s with evq := q, out := o }) ∧ s.evq = popped ++ q ∧
      ({ s with evq := q, out := o } : State).inReady = true := by
  induction n generalizing s with
  | zero =>
    have hnil : s.evq = [] := List.length_eq_zero_iff.mp (Nat.le_zero.mp hn)
    exact ⟨[], s.evq, s.out, rfl, rfl, by simpa [inReady_iff, hnil] using hdepth⟩
  | succ n ih =>
    by_cases hr : s.inReady = true
    · exact ⟨[], s.evq, s.out, by simp [popWhileHeld, hr], rfl, hr⟩
    · cases hq : s.evq with
      | nil => exact absurd ((inReady_iff s).mpr (by simpa [hq] using hdepth)) hr
      | cons ev rest =>
        have hexec := exec_popEvent_cons s ev rest hq
        obtain ⟨popped, q, o, hpop, hsplit, hready⟩ :=
          ih { s with evq := rest, out := some (.popped ev) } hdepth (by simpa [hq] using hn)
        refine ⟨ev :: popped, q, o, ?_, by simpa using hsplit, hready⟩
        simp [popWhileHeld, hr, hexec, outputOf, Output.popped?, hpop]

/-- Feeding bytes leaves the reader as taking them does, but for the queue and the output port, and the events popped
and then those still queued are the events taking them leaves in the queue. -/
theorem feed_eq_takeBytes (xs : Bytes) (s : State) (hdepth : 2 ≤ s.cfg.evqDepth) :
    ∃ popped q o, feed xs s = (popped, { takeBytes xs s with evq := q, out := o }) ∧
      popped ++ q = (takeBytes xs s).evq := by
  induction xs generalizing s with
  | nil => exact ⟨[], s.evq, s.out, rfl, rfl⟩
  | cons b bs ih =>
    obtain ⟨popped, q, o, hpop, hsplit, hready⟩ := popWhileHeld_cases _ s hdepth le_rfl
    have hexec := exec_pushByte_ready b _ hready
    rw [takeByte_congr b s q s.ops o] at hexec
    obtain ⟨popped', q', o', hfeed, hsplit'⟩ :=
      ih { takeByte b s with evq := q ++ emittedBy b s, ops := s.ops, out := none } (by simpa using hdepth)
    obtain ⟨es, hevq, hcongr⟩ := takeBytes_appends bs (takeByte b s)
    rw [hcongr] at hfeed hsplit'
    refine ⟨popped ++ popped', q', o', ?_, ?_⟩
    · rw [feed, hpop]
      simp only [hexec, nextOr_next, hfeed, takeBytes_cons, takeBytes_ops, takeByte_ops]
    · rw [takeBytes_cons, hevq, takeByte_evq, hsplit]
      simp only [List.append_assoc, hsplit']

/-- The events of R123's run are those that taking the bytes leaves in the queue, for every legal depth. -/
theorem feedEvents_eq_takeBytes (xs : Bytes) (s : State) (h : s.cfg.ok = true) :
    feedEvents xs s = (takeBytes xs s).evq := by
  obtain ⟨-, hdepth, -⟩ := (config_ok_iff s.cfg).mp h
  obtain ⟨popped, q, o, hfeed, hsplit⟩ := feed_eq_takeBytes xs s hdepth
  simpa [feedEvents, hfeed] using hsplit

/-! ### A line, byte by byte -/

theorem takeByte_idle_c (s : State) (hf : s.frState = .idle) : takeByte cByte s = { s with frState := .gotC } := by
  rw [takeByte, hf]; rfl

theorem takeByte_gotC_semi (s : State) (hf : s.frState = .gotC) :
    takeByte semiByte s = { s with frState := .inBody } := by
  simp [takeByte, hf, gotCStep]

theorem takeByte_inBody_fits (b : Byte) (s : State) (hf : s.frState = .inBody) (hb : b ≠ lfByte)
    (hlen : s.body.length < s.cfg.bodyMax) : takeByte b s = { s with body := s.body ++ [b] } := by
  simp [takeByte, hf, inBodyStep, hb, hlen]

theorem takeByte_inBody_lf (s : State) (hf : s.frState = .inBody) :
    takeByte lfByte s = { s with frState := .idle, body := [], evq := s.evq ++ [classify s.body] } := by
  simp [takeByte, hf, inBodyStep, State.emit]

/-- The bytes of a line are stored as they come while they fit (R115). -/
theorem takeBytes_body (xs : Bytes) (s : State) (hf : s.frState = .inBody) (hlf : lfByte ∉ xs)
    (hlen : s.body.length + xs.length ≤ s.cfg.bodyMax) : takeBytes xs s = { s with body := s.body ++ xs } := by
  induction xs generalizing s with
  | nil => simp
  | cons b bs ih =>
    simp only [List.mem_cons, not_or] at hlf
    obtain ⟨hb, hbs⟩ := hlf
    simp only [List.length_cons] at hlen
    have hstep := takeByte_inBody_fits b s hf (Ne.symm hb) (by omega)
    rw [takeBytes_cons, hstep, ih { s with body := s.body ++ [b] } hf hbs (by simp; omega)]
    simp

/-- A line `c;` body LF whose body fits gives the classifier's event and leads back to the start of a line. -/
theorem takeBytes_line (body : Bytes) (s : State) (hf : s.frState = .idle) (hs : s.body = [])
    (hlf : lfByte ∉ body) (hlen : body.length ≤ s.cfg.bodyMax) :
    takeBytes (cByte :: semiByte :: (body ++ [lfByte])) s = { s with evq := s.evq ++ [classify body] } := by
  rw [takeBytes_cons, takeByte_idle_c s hf, takeBytes_cons, takeByte_gotC_semi _ rfl, takeBytes_append,
    takeBytes_body body _ rfl hlf (by simpa [hs] using hlen), takeBytes_cons, takeByte_inBody_lf _ rfl]
  simp [hf, hs]

/-- A frame is received as its word and payload when both `BODY_MAX` and its bytes allow it (R78). -/
theorem takeBytes_frameBytes (cid : CmdId) (rcp : DoorId) (payload : Bytes) (s : State) (hf : s.frState = .idle)
    (hs : s.body = []) (hsemi : semiByte ∉ payload) (hlf : lfByte ∉ payload)
    (hlen : payload.length + 6 ≤ s.cfg.bodyMax) :
    takeBytes (frameBytes cid rcp payload) s = { s with evq := s.evq ++ [.text (cwPack cid rcp) payload] } := by
  have hclass : classify (hex4 (cwPack cid rcp) ++ [semiByte] ++ payload ++ [crByte]) =
      .text (cwPack cid rcp) payload := by
    rw [classify_fields _ _ (hex4_no_semi _) hsemi, parseHex4_hex4]
  rw [frameBytes_eq, takeBytes_line _ s hf hs, hclass]
  · simp [hlf, hex4_no_lf, show lfByte ≠ semiByte by decide, show lfByte ≠ crByte by decide]
  · simp; omega

end Sys2Proof.Machine
end

section
/-! The statements of `00_scope.md`. -/

namespace Sys2Proof.Machine

/-- The longest payload that R7 allows: as many digits `'0'` as `BODY_MAX` leaves room for. -/
def longestPayload (c : Config) : Bytes := List.replicate (c.bodyMax - 6) 0x30#8

theorem longestPayload_length (c : Config) (h : c.ok = true) : (longestPayload c).length + 6 = c.bodyMax := by
  obtain ⟨hbody, -, -⟩ := (config_ok_iff c).mp h
  rw [longestPayload, List.length_replicate]
  omega

/-- The frame with the longest payload is received as one `TEXT` event. -/
theorem feedEvents_longestPayload (c : Config) (h : c.ok = true) :
    feedEvents (frameBytes 0#5 0#4 (longestPayload c)) (State.resetWith c) =
      [.text (cwPack 0#5 0#4) (longestPayload c)] := by
  have hsemi : semiByte ∉ longestPayload c := fun hmem => absurd (List.eq_of_mem_replicate hmem) (by decide)
  have hlf : lfByte ∉ longestPayload c := fun hmem => absurd (List.eq_of_mem_replicate hmem) (by decide)
  rw [feedEvents_eq_takeBytes _ _ h,
    takeBytes_frameBytes _ _ _ _ rfl rfl hsemi hlf (longestPayload_length c h).le]
  rfl

/-- Settles O47: the payload bound is part of what every step keeps, and the frame with the longest payload attains
it. -/
theorem textPayloadBoundIsTight : Obligations.TextPayloadBoundIsTight := by
  refine ⟨fun s t w p hs hstep hmem => ?_, fun c hc => ?_⟩
  · simpa [Event.fitsIn] using step_keeps_payload_bound s t hs hstep _ hmem
  · exact ⟨_, _, _, feedEvents_longestPayload c hc, longestPayload_length c hc⟩

end Sys2Proof.Machine
end

section
/-! SUPPORT. What a byte makes of the partial line and how many events it emits, and that every operation keeps the
invariants of R17; then what `FRAME_ENCODE` answers and what the event output ports present (R20). -/

namespace Sys2Proof.Machine

/-! ### Every operation keeps the invariants -/

/-- A byte leaves the body alone outside `IN_BODY`, empties it, or is stored in it because it fits (R115). -/
theorem ByteMove.body_cases {b : Byte} {s : State} {f : FrState} {bd : Bytes} {es : List Event}
    (h : ByteMove b s f bd es) :
    (s.frState ≠ .inBody ∧ bd = s.body) ∨ bd = [] ∨
      (f = .inBody ∧ bd = s.body ++ [b] ∧ s.body.length < s.cfg.bodyMax) := by
  by_cases hf : s.frState = .inBody
  · simp only [ByteMove, hf, reduceCtorEq, false_and, true_and, false_or, or_false] at h
    rcases h with ⟨-, -, hbd, -⟩ | ⟨-, hlt, hf', hbd, -⟩ | ⟨-, -, -, hbd, -⟩
    · exact .inr (.inl hbd)
    · exact .inr (.inr ⟨hf', hbd, hlt⟩)
    · exact .inr (.inl hbd)
  · simp only [ByteMove, hf, false_and, false_or] at h
    exact .inl ⟨hf, by tauto⟩

/-- A byte emits at most two events, which is why `in_ready` asks for two free slots (R19, R118). -/
theorem emittedBy_length_le_two (b : Byte) (s : State) : (emittedBy b s).length ≤ 2 := by
  obtain ⟨f, bd, -, hmove⟩ := takeByte_cases b s
  rcases hmove with ⟨-, -, -, e, he, -⟩ | ⟨-, -, -, -, he⟩ | ⟨-, -, -, -, he⟩ | ⟨-, -, -, -, e, he, -⟩ |
    ⟨-, -, -, -, he⟩ | ⟨-, -, -, -, he⟩ | ⟨-, -, -, -, -, he⟩ | ⟨-, -, -, -, -, he⟩ | ⟨-, -, -, -, he⟩ |
    ⟨-, -, -, -, he⟩ <;> simp [he]

/-- The invariants speak of neither the offers nor the output port. -/
theorem State.Inv.with_ops_out {s : State} (hs : s.Inv) (os : List RawOp) (o : Option Output) :
    ({ s with ops := os, out := o } : State).Inv :=
  ⟨hs.cfg_ok, hs.body_le, hs.body_nil, hs.evq_le, hs.payload_le⟩

/-- A ready reader keeps the invariants when it takes a byte. -/
theorem takeByte_keeps_inv (b : Byte) (s : State) (hs : s.Inv) (hready : s.inReady = true) : (takeByte b s).Inv := by
  obtain ⟨f, bd, htake, hmove⟩ := takeByte_cases b s
  have hbody : bd.length ≤ s.cfg.bodyMax ∧ (f ≠ .inBody → bd = []) := by
    rcases hmove.body_cases with ⟨hf, rfl⟩ | rfl | ⟨rfl, rfl, hlt⟩
    · exact ⟨hs.body_le, fun _ => hs.body_nil hf⟩
    · exact ⟨Nat.zero_le _, fun _ => rfl⟩
    · exact ⟨by simpa using hlt, fun hne => absurd rfl hne⟩
  have hroom := (inReady_iff s).mp hready
  have hemit := emittedBy_length_le_two b s
  rw [htake]
  refine ⟨hs.cfg_ok, hbody.1, hbody.2, ?_, fun ev hev => ?_⟩
  · calc (s.evq ++ emittedBy b s).length = s.evq.length + (emittedBy b s).length := List.length_append
      _ ≤ s.cfg.evqDepth := by omega
  · exact (List.mem_append.mp hev).elim (hs.payload_le ev) (emittedBy_fitsIn b s hs.body_le ev)

/-- Every operation that answers keeps the invariants. -/
theorem exec_keeps_inv (i : Instr) (s t : State) (hs : s.Inv) (h : exec i s = .next t) : t.Inv := by
  rcases exec_next_cases i s t h with ⟨o, rfl⟩ | ⟨b, -, hready, rfl⟩ | ⟨ev, rest, -, hq, rfl⟩ | ⟨-, rfl⟩
  · exact hs.with_ops_out s.ops o
  · exact (takeByte_keeps_inv b s hs hready).with_ops_out _ none
  · refine ⟨hs.cfg_ok, hs.body_le, hs.body_nil, ?_, fun e he => ?_⟩
    · exact (Nat.le_succ _).trans (by simpa [hq] using hs.evq_le)
    · exact hs.payload_le e (hq ▸ List.mem_cons_of_mem ev he)
  · exact ⟨hs.cfg_ok, Nat.zero_le _, fun _ => rfl, Nat.zero_le _, fun e he => absurd he List.not_mem_nil⟩

/-! ### What `FRAME_ENCODE` answers -/

theorem exec_frameEncode_fits (cid : CmdId) (rcp : DoorId) (payload : Bytes) (s : State)
    (h : payload.length ≤ s.cfg.txPayloadMax) :
    exec (.frameEncode cid rcp payload) s = .next { s with out := some (.bytes (frameBytes cid rcp payload)) } := by
  simp [exec, execFrameEncode, State.answer, h]

theorem exec_frameEncode_tooLong (cid : CmdId) (rcp : DoorId) (payload : Bytes) (s : State)
    (h : s.cfg.txPayloadMax < payload.length) : exec (.frameEncode cid rcp payload) s = .refused .payloadTooLong := by
  simp [exec, execFrameEncode, h]

/-! ### The event output ports -/

/-- With an empty queue no event output port has a value. -/
theorem eventPorts_of_empty (s : State) (h : s.evq = []) :
    s.evKind = none ∧ s.evByte = none ∧ s.evWord = none ∧ s.evReason = none ∧ s.evPlen = none ∧
      s.evPayload = none := by
  simp [State.evKind, State.evByte, State.evWord, State.evReason, State.evPlen, State.evPayload, h]

/-- Each event output port presents its field of the head of the queue. -/
theorem eventPorts_of_head (s : State) (ev : Event) (rest : List Event) (h : s.evq = ev :: rest) :
    s.evKind = some ev.kindCode ∧ s.evByte = ev.byte? ∧ s.evWord = ev.word? ∧
      s.evReason = ev.reason?.map FrameErrorReason.code ∧ s.evPlen = ev.payload?.map List.length ∧
      s.evPayload = ev.payload? := by
  simp [State.evKind, State.evByte, State.evWord, State.evReason, State.evPlen, State.evPayload, h]

end Sys2Proof.Machine
end

section
/-! The statements of `10_state.md`. -/

namespace Sys2Proof.Machine

/-- Settles O45: a step changes at most the offers and the output port beside what its operation does, and the
operation keeps the invariants. -/
theorem everyStepKeepsTheInvariant : Obligations.EveryStepKeepsTheInvariant := by
  intro s t hs h
  rcases step_next_cases s t h with ⟨-, rfl⟩ | ⟨o, rest, i, -, -, hexec⟩
  · exact hs.with_ops_out s.ops none
  · exact exec_keeps_inv i _ t (hs.with_ops_out rest s.out) hexec

/-- Settles O21: only `FRAME_ENCODE` looks at the state, and there only at the parameter both states share. -/
theorem codecOutputsDependOnOperandsOnly : Obligations.CodecOutputsDependOnOperandsOnly := by
  intro i s t hi hcfg
  cases i with
  | frameEncode cid rcp payload =>
    rcases Nat.lt_or_ge t.cfg.txPayloadMax payload.length with hlong | hfits
    · exact .inr ⟨_, exec_frameEncode_tooLong _ _ _ s (hcfg ▸ hlong), exec_frameEncode_tooLong _ _ _ t hlong⟩
    · exact .inl ⟨_, exec_frameEncode_fits _ _ _ s (hcfg ▸ hfits), exec_frameEncode_fits _ _ _ t hfits⟩
  | pushByte b => cases hi
  | popEvent => cases hi
  | reset => cases hi
  | _ => exact .inl ⟨_, rfl, rfl⟩

/-- Settles O38: the cleared queue leaves two slots free, for the depth is at least 2, and presents no event. -/
theorem signalsAfterReset : Obligations.SignalsAfterReset := by
  intro s hcfg
  obtain ⟨-, hdepth, -⟩ := (config_ok_iff s.cfg).mp hcfg
  exact ⟨_, exec_reset s, rfl, rfl, rfl, (inReady_iff _).mpr hdepth, rfl, eventPorts_of_empty _ rfl⟩

/-- Settles O43: the ports are fields of the head, and each kind has the fields that R18 gives it. -/
theorem eventPortsPresentTheHead : Obligations.EventPortsPresentTheHead := by
  intro s rest
  have hvalid := evValid_iff s
  refine ⟨hvalid, fun h => eventPorts_of_empty s (by simpa [h] using hvalid), fun w p h => ?_, fun b h => ?_,
    fun r h => ?_, fun h => (eventPorts_of_head s _ rest h).1, fun h => (eventPorts_of_head s _ rest h).1, ?_,
    rfl, rfl, rfl, rfl⟩
  · obtain ⟨hkind, hbyte, hword, hreason, hplen, hpayload⟩ := eventPorts_of_head s _ rest h
    exact ⟨hkind, hword, hpayload, hplen, hbyte, hreason⟩
  · obtain ⟨hkind, hbyte, hword, hreason, hplen, hpayload⟩ := eventPorts_of_head s _ rest h
    exact ⟨hkind, hbyte, hword, hpayload, hplen, hreason⟩
  · obtain ⟨hkind, hbyte, hword, hreason, hplen, hpayload⟩ := eventPorts_of_head s _ rest h
    exact ⟨hkind, hreason, hbyte, hword, hpayload, hplen⟩
  · rintro (h | h) <;> obtain ⟨-, hbyte, hword, hreason, hplen, hpayload⟩ := eventPorts_of_head s _ rest h <;>
      exact ⟨hbyte, hword, hreason, hpayload, hplen⟩

end Sys2Proof.Machine
end

section
/-! SUPPORT. The decoder by the format of the code (R60 to R62), the digit alphabet (R55), the reserved bits of the
command word (R53) and the bound on the kind codes (R57). -/

namespace Sys2Proof.Machine

/-! ### Codes and formats -/

/-- The codes without a format are the four of R62. -/
theorem formatOf_eq_none_iff (op : BitVec 4) :
    formatOf op = none ↔ op = 0x0#4 ∨ op = 0xD#4 ∨ op = 0xE#4 ∨ op = 0xF#4 := by
  revert op; decide

theorem decode_of_formatOf_none (o : RawOp) (h : formatOf o.op = none) : decode o = .error .reservedOp := by
  rcases decode_cases o with ⟨f, hf, -⟩ | ⟨-, hd⟩
  · rw [h] at hf; cases hf
  · exact hd

theorem decode_ok_of_fits (o : RawOp) (f : Format) (hf : formatOf o.op = some f)
    (hshape : shapeOk f.types o.operands = true) (hwidths : widthsOk f.types o.operands = true) :
    ∃ i, decode o = .ok i := by
  rcases decode_cases o with ⟨g, hg, read, hread, hd⟩ | ⟨hnone, -⟩
  · obtain rfl : g = f := Option.some.inj (hg.symm.trans hf)
    exact hd ▸ (hread o.operands).2.2 hshape hwidths
  · rw [hf] at hnone; cases hnone

/-- Zero operands have the shape of their positions. -/
theorem shapeOk_map_zero (ts : List OperandType) : shapeOk ts (ts.map OperandType.zero) = true := by
  induction ts with
  | nil => rfl
  | cons t ts ih => cases t <;> simp [shapeOk, OperandType.zero, OperandType.admits, ih]

/-- Zero operands fit every width. -/
theorem widthsOk_map_zero (ts : List OperandType) : widthsOk ts (ts.map OperandType.zero) = true := by
  induction ts with
  | nil => rfl
  | cons t ts ih =>
    have hfits : t.fits t.zero = true := by cases t <;> simp [OperandType.zero, OperandType.fits]
    simpa [widthsOk, hfits] using ih

/-! ### Digits -/

/-- The lowercase letters stand in the order of their values, as the uppercase ones do. -/
theorem lowerDigit_eq (n : Nibble) (h : 10 ≤ n.toNat) :
    lowerDigits.getD (n.toNat - 10) 0#8 = BitVec.ofNat 8 (0x61 + (n.toNat - 10)) := by
  revert n; decide

theorem hexVal_lowerDigit (n : Nibble) (h : 10 ≤ n.toNat) :
    hexVal (lowerDigits.getD (n.toNat - 10) 0#8) = some n := by
  revert n; decide

/-- A byte with a digit value is the digit written for that value or its lowercase letter: the three ranges of R11. -/
theorem digit_of_hexVal (b : Byte) (n : Nibble) (h : hexVal b = some n) :
    hexChar n = b ∨ (10 ≤ n.toNat ∧ lowerDigits.getD (n.toNat - 10) 0#8 = b) := by
  have hb : BitVec.ofNat 8 b.toNat = b := by simp
  simp only [hexVal] at h
  split_ifs at h with hdigit hupper hlower
  · have hn : n.toNat = b.toNat - 0x30 := by rw [← Option.some.inj h, BitVec.toNat_ofNat]; omega
    left
    rw [hexChar, if_pos (by omega), hn, Nat.add_sub_cancel' hdigit.1, hb]
  · have hn : n.toNat = b.toNat - 0x41 + 10 := by rw [← Option.some.inj h, BitVec.toNat_ofNat]; omega
    left
    rw [hexChar, if_neg (by omega), hn, Nat.add_sub_cancel, Nat.add_sub_cancel' hupper.1, hb]
  · have hn : n.toNat = b.toNat - 0x61 + 10 := by rw [← Option.some.inj h, BitVec.toNat_ofNat]; omega
    have hten : 10 ≤ n.toNat := by omega
    right
    rw [lowerDigit_eq n hten, hn, Nat.add_sub_cancel, Nat.add_sub_cancel' hlower.1, hb]
    exact ⟨Nat.le_add_left .., rfl⟩

/-! ### The reserved bits of the command word -/

/-- A word within a mask is clear wherever the mask is. -/
theorem getLsbD_of_masked {m mask : Word} (h : m &&& mask = m) {i : Nat} (hi : mask.getLsbD i = false) :
    m.getLsbD i = false := by
  rw [← h, BitVec.getLsbD_and, hi, Bool.and_false]

/-- No field but the word reads a reserved bit (R53). -/
theorem cwFields_xor_reserved (w m : Word) (h : m &&& 0xFA00#16 = m) :
    cwFields (w ^^^ m) = { cwFields w with word := w ^^^ m } := by
  have clear : ∀ i, (0xFA00#16).getLsbD i = false → (w ^^^ m).getLsbD i = w.getLsbD i := fun i hi => by
    rw [BitVec.getLsbD_xor, getLsbD_of_masked h hi, Bool.xor_false]
  have field : ∀ k len, (∀ i < len, (0xFA00#16).getLsbD (k + i) = false) →
      (w ^^^ m).extractLsb' k len = w.extractLsb' k len := fun k len hk => by
    ext i hi
    rw [BitVec.getElem_extractLsb', BitVec.getElem_extractLsb', clear _ (hk i hi)]
  simp only [cwFields]
  rw [clear 10 rfl, clear 4 rfl, field 5 4 (by decide), field 0 5 (by decide)]

/-- A packed word ends below bit 9: the door field is bits 8 to 5. -/
theorem cwPack_getLsbD_of_ge (cid : CmdId) (rcp : DoorId) (i : Nat) (h : 9 ≤ i) :
    (cwPack cid rcp).getLsbD i = false := by
  have hcid : (cid.setWidth 16).getLsbD i = false := by simp [BitVec.getLsbD_of_ge cid i (by omega)]
  have hdoor : (rcp.setWidth 16 <<< 5).getLsbD i = false := by
    simp [BitVec.getLsbD_of_ge rcp (i - 5) (by omega)]
  have hbit : (0x0010#16).getLsbD i = false :=
    Nat.testBit_lt_two_pow ((show 0x0010 < 2 ^ 9 by decide).trans_le (Nat.pow_le_pow_right (by decide) h))
  unfold cwPack
  split_ifs
  · rw [BitVec.getLsbD_or, BitVec.getLsbD_or, hdoor, hbit, hcid]; rfl
  · exact hcid

theorem cwPack_reserved_zero (cid : CmdId) (rcp : DoorId) : cwPack cid rcp &&& 0xFA00#16 = 0#16 := by
  have hmask : ∀ i < 9, (0xFA00#16).getLsbD i = false := by decide
  apply BitVec.eq_of_getLsbD_eq
  intro i _
  rw [BitVec.getLsbD_and, BitVec.getLsbD_zero, Bool.and_eq_false_iff]
  rcases Nat.lt_or_ge i 9 with hlow | hhigh
  · exact .inr (hmask i hlow)
  · exact .inl (cwPack_getLsbD_of_ge cid rcp i hhigh)

/-- A line of any word and a payload without a `';'` is a `TEXT` event (R48, R76). -/
theorem classify_hex4_line (w : Word) (payload : Bytes) (h : semiByte ∉ payload) :
    classify (hex4 w ++ [semiByte] ++ payload ++ [crByte]) = .text w payload := by
  rw [classify_fields _ _ (hex4_no_semi w) h, parseHex4_hex4]

/-! ### Kind and state codes -/

theorem kindCode_le_four (ev : Event) : ev.kindCode.toNat ≤ 4 := by
  cases ev <;> simp [Event.kindCode]

/-- What the kind port presents is the code of an event that exists. -/
theorem evKind_le_four (s : State) (k : BitVec 3) (h : s.evKind = some k) : k.toNat ≤ 4 := by
  obtain ⟨ev, -, rfl⟩ := Option.map_eq_some_iff.mp h
  exact kindCode_le_four ev

theorem frState_code_surjective (c : BitVec 2) : ∃ q : FrState, q.code = c := by
  have codes : ∀ c : BitVec 2, c = 0#2 ∨ c = 1#2 ∨ c = 2#2 ∨ c = 3#2 := by decide
  rcases codes c with rfl | rfl | rfl | rfl
  · exact ⟨.idle, rfl⟩
  · exact ⟨.gotC, rfl⟩
  · exact ⟨.inBody, rfl⟩
  · exact ⟨.discard, rfl⟩

end Sys2Proof.Machine
end

section
/-! The statements of `30_encoding.md`. -/

namespace Sys2Proof.Machine

/-- Settles O24: the reserved bits lie outside every extracted field and above every packed one, and the classifier
takes whatever word its four digits spell. -/
theorem reservedWordBitsHaveNoEffect : Obligations.ReservedWordBitsHaveNoEffect := by
  refine ⟨fun w m s hm => ?_, fun cid rcp s => ?_, fun w payload s hp => ?_⟩
  · exact ⟨_, _, rfl, rfl, cwFields_xor_reserved w m hm⟩
  · exact ⟨_, rfl, cwPack_reserved_zero cid rcp⟩
  · rw [← hex4_eq_spell, ← classify_hex4_line w payload hp]
    rfl

/-- Settles O4: the reserved codes are those without a format, and zero operands complete every other code. -/
theorem reservedCodesAreRefused : Obligations.ReservedCodesAreRefused := by
  refine ⟨fun o s rest hop => ?_, fun op h0 hD hE hF => ?_⟩
  · have hdecode := decode_of_formatOf_none o ((formatOf_eq_none_iff o.op).mpr hop)
    exact ⟨hdecode, fun hops => step_cons_error s o rest _ hops hdecode⟩
  · have hsome : formatOf op ≠ none := by simp [formatOf_eq_none_iff, h0, hD, hE, hF]
    obtain ⟨f, hf⟩ := Option.ne_none_iff_exists'.mp hsome
    exact ⟨f.types.map OperandType.zero, decode_ok_of_fits _ f hf (shapeOk_map_zero _) (widthsOk_map_zero _)⟩

/-- Settles O14: the three ranges of the decoder are the digits, the uppercase letters and the lowercase letters. -/
theorem hexDigitAlphabet : Obligations.HexDigitAlphabet := by
  refine ⟨hexChar_eq_upperDigit, fun b n => ?_⟩
  rw [← hexChar_eq_upperDigit]
  constructor
  · exact digit_of_hexVal b n
  · rintro (rfl | ⟨hn, rfl⟩)
    · exact hexVal_hexChar n
    · exact hexVal_lowerDigit n hn

/-- Settles O42: a presented kind is the code of an event, none of which exceeds 4. -/
theorem kindAndStateCodes : Obligations.KindAndStateCodes := by
  refine ⟨fun w p b r => ⟨rfl, rfl, rfl, rfl, rfl⟩, fun s => ⟨fun h => ?_, fun h => ?_, fun h => ?_⟩,
    rfl, rfl, rfl, rfl, frState_code_surjective⟩
  all_goals exact absurd (evKind_le_four s _ h) (by decide)

end Sys2Proof.Machine
end

section
/-! SUPPORT. What each command-word and frame-text operation answers and shows; the fields of a packed word (R77),
rendering and parsing as inverses (R79), and lines with more than one `';'` (R78). -/

namespace Sys2Proof.Machine

/-! ### What the operations answer -/

theorem exec_cwDecode (w : Word) (s : State) :
    exec (.cwDecode w) s = .next { s with out := some (.fields (cwFields w)) } := rfl

theorem exec_cwEncode (cid : CmdId) (rcp : DoorId) (s : State) :
    exec (.cwEncode cid rcp) s = .next { s with out := some (.word (cwPack cid rcp)) } := rfl

theorem exec_hex4Render (w : Word) (s : State) :
    exec (.hex4Render w) s = .next { s with out := some (.bytes (hex4 w)) } := rfl

theorem exec_hex4Parse (d : Bytes) (s : State) :
    exec (.hex4Parse d) s = .next { s with out := some (.parsed (parseHex4 d)) } := rfl

theorem exec_lineClassify (body : Bytes) (s : State) :
    exec (.lineClassify body) s = .next { s with out := some (.classified (classify body)) } := rfl

/-- The output port of an operation that answers is the port of the state it answers. -/
theorem outputOf_of_next {i : Instr} {s t : State} (h : exec i s = .next t) : outputOf i s = t.out := by
  rw [outputOf, h]

@[simp] theorem outputOf_cwDecode (w : Word) (s : State) :
    outputOf (.cwDecode w) s = some (.fields (cwFields w)) := rfl

@[simp] theorem outputOf_cwEncode (cid : CmdId) (rcp : DoorId) (s : State) :
    outputOf (.cwEncode cid rcp) s = some (.word (cwPack cid rcp)) := rfl

@[simp] theorem outputOf_hex4Render (w : Word) (s : State) :
    outputOf (.hex4Render w) s = some (.bytes (hex4 w)) := rfl

@[simp] theorem outputOf_hex4Parse (d : Bytes) (s : State) :
    outputOf (.hex4Parse d) s = some (.parsed (parseHex4 d)) := rfl

@[simp] theorem outputOf_lineClassify (body : Bytes) (s : State) :
    outputOf (.lineClassify body) s = some (.classified (classify body)) := rfl

theorem outputOf_frameEncode_fits (cid : CmdId) (rcp : DoorId) (payload : Bytes) (s : State)
    (h : payload.length ≤ s.cfg.txPayloadMax) :
    outputOf (.frameEncode cid rcp payload) s = some (.bytes (frameBytes cid rcp payload)) :=
  outputOf_of_next (exec_frameEncode_fits cid rcp payload s h)

/-! ### The command word -/

/-- The unpacker by the shift and mask formulas of R71: each mask keeps exactly the bits of its field. -/
theorem cwFields_eq_shift_mask (w : Word) :
    cwFields w =
      { alarm := w.getLsbD 10, hasRecipient := w.getLsbD 4, doorId := ((w >>> 5) &&& 0xF#16).setWidth 4,
        commandId := (w &&& 0x1F#16).setWidth 5, word := w } := by
  have hdoor : ((w >>> 5) &&& 0xF#16).setWidth 4 = w.extractLsb' 5 4 := by
    rw [BitVec.setWidth_and, show (0xF#16).setWidth 4 = BitVec.allOnes 4 by decide, BitVec.and_allOnes,
      BitVec.setWidth_ushiftRight_eq_extractLsb]
  have hid : (w &&& 0x1F#16).setWidth 5 = w.extractLsb' 0 5 := by
    rw [BitVec.setWidth_and, show (0x1F#16).setWidth 5 = BitVec.allOnes 5 by decide, BitVec.and_allOnes,
      BitVec.setWidth_eq_extractLsb' (by decide)]
  rw [hdoor, hid, cwFields]

@[simp] theorem cwPack_broadcast (cid : CmdId) : cwPack cid 0#4 = cid.setWidth 16 := by
  simp [cwPack]

theorem cwPack_addressed (cid : CmdId) (rcp : DoorId) (h : rcp ≠ 0#4) :
    cwPack cid rcp = (rcp.setWidth 16 <<< 5) ||| 0x0010#16 ||| cid.setWidth 16 :=
  if_pos h

/-- Shifting a door id into its field loses no bit of it. -/
theorem ofNat_shiftLeft_doorId (rcp : DoorId) : BitVec.ofNat 16 (rcp.toNat <<< 5) = rcp.setWidth 16 <<< 5 := by
  have hlt := rcp.isLt
  apply BitVec.eq_of_toNat_eq
  rw [BitVec.toNat_ofNat, BitVec.toNat_shiftLeft, BitVec.toNat_setWidth, Nat.mod_eq_of_lt (a := rcp.toNat) (by omega)]

/-- The packer by R72's formula on numbers. -/
theorem cwPack_eq_ofNat (cid : CmdId) (rcp : DoorId) :
    cwPack cid rcp = if rcp = 0#4 then BitVec.ofNat 16 cid.toNat
      else BitVec.ofNat 16 ((rcp.toNat <<< 5) ||| (1 <<< 4) ||| cid.toNat) := by
  split_ifs with h
  · rw [h, cwPack_broadcast, BitVec.ofNat_toNat]
  · rw [cwPack_addressed cid rcp h, BitVec.ofNat_or, BitVec.ofNat_or, ofNat_shiftLeft_doorId, BitVec.ofNat_toNat]
    rfl

/-- A command id reaches no bit of the door field. -/
theorem extractLsb'_door_of_cid (cid : CmdId) : (cid.setWidth 16).extractLsb' 5 4 = 0#4 := by
  ext i hi
  simp

theorem extractLsb'_id_of_cid (cid : CmdId) : (cid.setWidth 16).extractLsb' 0 5 = cid := by
  rw [← BitVec.setWidth_eq_extractLsb' (by decide), BitVec.setWidth_setWidth_of_le _ (by decide), BitVec.setWidth_eq]

theorem extractLsb'_door_of_rcp (rcp : DoorId) : (rcp.setWidth 16 <<< 5).extractLsb' 5 4 = rcp := by
  ext i hi
  simp [show 5 + i < 16 by omega, BitVec.getLsbD_eq_getElem hi]

theorem extractLsb'_id_of_rcp (rcp : DoorId) : (rcp.setWidth 16 <<< 5).extractLsb' 0 5 = 0#5 := by
  ext i hi
  simp [Nat.not_le.mpr hi]

/-- A packed broadcast decodes to its id alone, whose bit 4 is read as `has_recipient` (R77, `90_conflicts.md` C2). -/
theorem cwFields_cwPack_broadcast (cid : CmdId) :
    cwFields (cwPack cid 0#4) =
      { alarm := false, hasRecipient := cid.getLsbD 4, doorId := 0#4, commandId := cid, word := cwPack cid 0#4 } := by
  have halarm := cwPack_getLsbD_of_ge cid 0#4 10 (by decide)
  rw [cwFields, halarm, cwPack_broadcast, extractLsb'_door_of_cid, extractLsb'_id_of_cid]
  simp

/-- A packed directed word decodes to its recipient and to its id with bit 4 set (R77). -/
theorem cwFields_cwPack_addressed (cid : CmdId) (rcp : DoorId) (h : rcp ≠ 0#4) :
    cwFields (cwPack cid rcp) =
      { alarm := false, hasRecipient := true, doorId := rcp, commandId := cid ||| 0x10#5,
        word := cwPack cid rcp } := by
  have halarm := cwPack_getLsbD_of_ge cid rcp 10 (by decide)
  have hbit : (cwPack cid rcp).getLsbD 4 = true := by simp [cwPack_addressed cid rcp h]
  have hdoor : (cwPack cid rcp).extractLsb' 5 4 = rcp := by
    rw [cwPack_addressed cid rcp h, BitVec.extractLsb'_or, BitVec.extractLsb'_or, extractLsb'_door_of_rcp,
      extractLsb'_door_of_cid, BitVec.or_zero]
    exact BitVec.or_zero
  have hid : (cwPack cid rcp).extractLsb' 0 5 = cid ||| 0x10#5 := by
    rw [cwPack_addressed cid rcp h, BitVec.extractLsb'_or, BitVec.extractLsb'_or, extractLsb'_id_of_rcp,
      extractLsb'_id_of_cid, BitVec.zero_or, BitVec.or_comm]
    rfl
  rw [cwFields, halarm, hbit, hdoor, hid]

/-- Setting bit 4 keeps an id exactly when it has the bit already. -/
theorem or_bit4_eq_self_iff (cid : CmdId) : cid ||| 0x10#5 = cid ↔ 16 ≤ cid.toNat := by
  revert cid; decide

theorem setWidth_or_bit4 (cid : CmdId) : (cid ||| 0x10#5).setWidth 4 = cid.setWidth 4 := by
  rw [BitVec.setWidth_or]
  exact BitVec.or_zero

/-! ### Rendering and parsing -/

theorem hexNumber_four_toNat (a b c e : Nibble) :
    (hexNumber [a, b, c, e]).toNat = a.toNat * 0x1000 + b.toNat * 0x100 + c.toNat * 0x10 + e.toNat := by
  rw [hexNumber_toNat [a, b, c, e] le_rfl]
  simp only [spelt, List.foldl_cons, List.foldl_nil]
  omega

/-- `HEX4_PARSE` in numbers (R74). -/
theorem parseHex4_eq_some_iff_toNat (d : Bytes) (w : Word) :
    parseHex4 d = some w ↔ ∃ a b c e : Nibble, d.map hexVal = [some a, some b, some c, some e] ∧
      w.toNat = a.toNat * 0x1000 + b.toNat * 0x100 + c.toNat * 0x10 + e.toNat := by
  simp only [parseHex4_eq_some, ← hexNumber_four_toNat, BitVec.toNat_inj]

/-- Parsing reads the values of the digits alone, so their case does not matter (R79). -/
theorem parseHex4_congr (d e : Bytes) (h : d.map hexVal = e.map hexVal) : parseHex4 d = parseHex4 e := by
  ext w
  rw [parseHex4_eq_some, parseHex4_eq_some, h]

theorem hex4_injective (w v : Word) (h : hex4 w = hex4 v) : w = v := by
  have hparse := congrArg parseHex4 h
  simpa using hparse

theorem mem_upperDigits_of_mem_hex4 (w : Word) (b : Byte) (h : b ∈ hex4 w) : b ∈ upperDigits := by
  simp only [hex4, List.mem_cons, List.not_mem_nil, or_false] at h
  rcases h with rfl | rfl | rfl | rfl <;> exact hexChar_mem_upperDigits _

/-- Rendering the number that four digits spell writes those digits. -/
theorem hex4_hexNumber (a b c e : Nibble) : hex4 (hexNumber [a, b, c, e]) = [a, b, c, e].map hexChar := by
  have hb := b.isLt
  have hc := c.isLt
  have he := e.isLt
  have digit : ∀ (v : Nibble) (n : Nat), n % 16 = v.toNat → BitVec.ofNat 4 n = v := fun v n hn =>
    BitVec.eq_of_toNat_eq ((BitVec.toNat_ofNat n 4).trans hn)
  simp only [hex4_eq_spell, hexNumber_four_toNat, spell, upperDigit_eq_hexChar, List.nil_append, List.cons_append,
    List.map_cons, List.map_nil]
  rw [digit a _ (by omega), digit b _ (by omega), digit c _ (by omega), digit e _ (by omega)]

/-- Uppercase digits are the renderings of their values. -/
theorem map_hexChar_of_upperDigits (d : Bytes) (vs : List Nibble) (hd : d.map hexVal = vs.map some)
    (hupper : ∀ b ∈ d, b ∈ upperDigits) : vs.map hexChar = d := by
  induction d generalizing vs with
  | nil => cases vs with
    | nil => rfl
    | cons v vs => cases hd
  | cons b bs ih => cases vs with
    | nil => cases hd
    | cons v vs =>
      rw [List.map_cons, List.map_cons, List.cons.injEq] at hd
      rw [List.map_cons, hexChar_of_mem_upperDigits b v (hupper b List.mem_cons_self) hd.1,
        ih vs hd.2 fun x hx => hupper x (List.mem_cons_of_mem b hx)]

/-- Rendering gives a parsed list back exactly when it is uppercase (R79). -/
theorem hex4_eq_iff_upper (d : Bytes) (w : Word) (h : parseHex4 d = some w) :
    hex4 w = d ↔ ∀ b ∈ d, b ∈ upperDigits := by
  constructor
  · rintro rfl
    exact mem_upperDigits_of_mem_hex4 w
  · intro hupper
    obtain ⟨a, b, c, e, hd, rfl⟩ := (parseHex4_eq_some d w).mp h
    rw [hex4_hexNumber, map_hexChar_of_upperDigits d [a, b, c, e] hd hupper]

/-! ### Lines -/

/-- A `';'` in the payload is the second one of its line (R78). -/
theorem classify_semi_in_payload (field payload : Bytes) (h : semiByte ∈ payload) :
    classify (field ++ [semiByte] ++ payload ++ [crByte]) = .frameError .fieldCount := by
  have hpayload : 0 < payload.count semiByte := List.count_pos_iff.mpr h
  refine classify_fieldCount _ ?_
  rw [List.count_append, List.count_append, List.count_singleton_self]
  omega

end Sys2Proof.Machine
end

section
/-! The statements of `41_command_codec.md`. -/

namespace Sys2Proof.Machine

/-- Settles O15: the parser's value is the number of its four digits, written out. -/
theorem hex4ParseReadsFourDigits : Obligations.Hex4ParseReadsFourDigits := by
  intro d s
  exact ⟨_, exec_hex4Parse d s, parseHex4_eq_some_iff_toNat d⟩

/-- Settles O17: without a CR, with another number of `';'` bytes than one, and by its two fields. -/
theorem lineClassifyReportsTheFirstError : Obligations.LineClassifyReportsTheFirstError := by
  intro body s
  refine ⟨_, exec_lineClassify body s, classify_noCr body, ?_, ?_⟩
  · rintro line rfl hcount
    exact classify_fieldCount line hcount
  · rintro field payload rfl hfield hpayload
    rw [classify_fields field payload hfield hpayload, outputOf_hex4Parse]
    refine ⟨fun hnone => ?_, fun w hsome => ?_⟩
    · have hparse : parseHex4 field = none := by simpa using hnone
      rw [hparse]
    · have hparse : parseHex4 field = some w := by simpa using hsome
      rw [hparse]

/-- Settles O22: a broadcast keeps its id, a directed word has bit 4 set in it. -/
theorem wordRoundTrip : Obligations.WordRoundTrip := by
  intro cid rcp s
  refine ⟨_, _, outputOf_cwEncode cid rcp s, outputOf_cwDecode _ s, ?_⟩
  by_cases h : rcp = 0#4
  · subst h
    rw [cwFields_cwPack_broadcast]
    exact ⟨rfl, rfl, fun hne => absurd rfl hne, fun _ => ⟨rfl, rfl⟩, by simp, rfl⟩
  · rw [cwFields_cwPack_addressed cid rcp h]
    exact ⟨rfl, rfl, fun _ => ⟨rfl, rfl⟩, fun hzero => absurd hzero h,
      (or_bit4_eq_self_iff cid).trans (by simp [h]), setWidth_or_bit4 cid⟩

/-- Settles O25: parsing undoes rendering, and rendering undoes parsing on uppercase digits. -/
theorem hexRoundTrip : Obligations.HexRoundTrip := by
  refine ⟨fun w s => ⟨_, outputOf_hex4Render w s, ?_⟩, fun w v s h => ?_, ⟨by decide, fun d e s h => ?_⟩,
    fun d w s h => ?_⟩
  · rw [outputOf_hex4Parse, parseHex4_hex4]
  · exact hex4_injective w v (by simpa using h)
  · rw [outputOf_hex4Parse, outputOf_hex4Parse, parseHex4_congr d e h]
  · simpa using hex4_eq_iff_upper d w (by simpa using h)

/-- Settles O26: the body is the word's digits, a `';'`, the payload and CR; an LF only matters to the reader, not to
the classifier. -/
theorem frameRoundTrip : Obligations.FrameRoundTrip := by
  intro cid rcp payload s hfits
  refine ⟨_, _, outputOf_cwEncode cid rcp s, outputOf_frameEncode_fits cid rcp payload s hfits, ?_⟩
  rw [frameBytes_body, outputOf_lineClassify]
  refine ⟨fun hsemi _ => ?_, fun hsemi => ?_⟩
  · rw [classify_hex4_line _ _ hsemi]
  · rw [classify_semi_in_payload _ _ hsemi]

/-- Settles O11: each extracted field is its shift and mask formula. -/
theorem cwDecodeGivesTheFields : Obligations.CwDecodeGivesTheFields := by
  intro w s
  rw [exec_cwDecode, cwFields_eq_shift_mask]

/-- Settles O12: the packer's word is the number of R72's formula. -/
theorem cwEncodePacksTheWord : Obligations.CwEncodePacksTheWord := by
  intro cid rcp s
  rw [exec_cwEncode, cwPack_eq_ofNat]

/-- Settles O13: the four extracted digits are the base-16 digits of the word. -/
theorem hex4RenderSpellsTheWord : Obligations.Hex4RenderSpellsTheWord := by
  intro w s
  rw [exec_hex4Render, hex4_eq_spell]

/-- Settles O16: a payload that fits is framed behind the digits of its word, and a longer one is refused. -/
theorem frameEncodeBuildsTheFrame : Obligations.FrameEncodeBuildsTheFrame := by
  intro cid rcp payload s
  refine ⟨fun hfits => ?_, exec_frameEncode_tooLong cid rcp payload s⟩
  refine ⟨_, _, outputOf_cwEncode cid rcp s, exec_frameEncode_fits cid rcp payload s hfits, ?_, ?_⟩
  · rw [← hex4_eq_spell, frameBytes]
  · exact frameBytes_length cid rcp payload

end Sys2Proof.Machine
end

section
/-! SUPPORT. What each payload operation answers and shows (R97 to R99), what the status reader accepts and gives
(R98), and the digits of the encoded payloads (R100, R101). -/

namespace Sys2Proof.Machine

/-! ### What the operations answer -/

theorem exec_allowEncode (grant : Bool) (secs : Byte) (s : State) :
    exec (.allowEncode grant secs) s = .next { s with out := some (.bytes (allowPayload grant secs)) } := rfl

theorem exec_statusDecode (p : Bytes) (s : State) :
    exec (.statusDecode p) s = .next { s with out := some (.status (statusOf p)) } := rfl

theorem exec_timeEncode (year : Word) (month day wday hour minute second : Byte) (s : State) :
    exec (.timeEncode year month day wday hour minute second) s =
      .next { s with out := some (.bytes (timePayload year month day wday hour minute second)) } := rfl

@[simp] theorem outputOf_allowEncode (grant : Bool) (secs : Byte) (s : State) :
    outputOf (.allowEncode grant secs) s = some (.bytes (allowPayload grant secs)) := rfl

@[simp] theorem outputOf_statusDecode (p : Bytes) (s : State) :
    outputOf (.statusDecode p) s = some (.status (statusOf p)) := rfl

@[simp] theorem outputOf_timeEncode (year : Word) (month day wday hour minute second : Byte) (s : State) :
    outputOf (.timeEncode year month day wday hour minute second) s =
      some (.bytes (timePayload year month day wday hour minute second)) := rfl

/-! ### The encoded payloads -/

@[simp] theorem allowPayload_grant (secs : Byte) : allowPayload true secs = hex2 secs := rfl

@[simp] theorem allowPayload_deny (secs : Byte) : allowPayload false secs = [] := rfl

theorem allowPayload_eq_spell (grant : Bool) (secs : Byte) :
    allowPayload grant secs = if grant then spell 2 secs.toNat else [] := by
  rw [allowPayload, hex2_eq_spell]

theorem timePayload_eq_spell (year : Word) (month day wday hour minute second : Byte) :
    timePayload year month day wday hour minute second =
      spell 4 year.toNat ++ spell 2 month.toNat ++ spell 2 day.toNat ++ spell 2 wday.toNat ++
        spell 2 hour.toNat ++ spell 2 minute.toNat ++ spell 2 second.toNat := by
  simp only [timePayload, hex4_eq_spell, hex2_eq_spell]

@[simp] theorem timePayload_length (year : Word) (month day wday hour minute second : Byte) :
    (timePayload year month day wday hour minute second).length = 16 := rfl

theorem mem_upperDigits_of_mem_hex2 (v : Byte) (b : Byte) (h : b ∈ hex2 v) : b ∈ upperDigits := by
  simp only [hex2, List.mem_cons, List.not_mem_nil, or_false] at h
  rcases h with rfl | rfl <;> exact hexChar_mem_upperDigits _

theorem mem_upperDigits_of_mem_allowPayload (grant : Bool) (secs b : Byte) (h : b ∈ allowPayload grant secs) :
    b ∈ upperDigits := by
  cases grant with
  | true => exact mem_upperDigits_of_mem_hex2 secs b h
  | false => cases h

theorem mem_upperDigits_of_mem_timePayload (year : Word) (month day wday hour minute second : Byte) (b : Byte)
    (h : b ∈ timePayload year month day wday hour minute second) : b ∈ upperDigits := by
  simp only [timePayload, List.mem_append, or_assoc] at h
  rcases h with hyear | hfield | hfield | hfield | hfield | hfield | hfield
  · exact mem_upperDigits_of_mem_hex4 year b hyear
  all_goals exact mem_upperDigits_of_mem_hex2 _ b hfield

theorem allowPayload_length_le (grant : Bool) (secs : Byte) : (allowPayload grant secs).length ≤ 2 := by
  cases grant <;> simp

/-- A list of uppercase digits that fits a frame comes back from it: neither `';'` nor LF is a digit (R101). -/
theorem digits_frameRoundTrip (cid : CmdId) (rcp : DoorId) (p : Bytes) (s : State)
    (hfits : p.length ≤ s.cfg.txPayloadMax) (hdigits : ∀ b ∈ p, b ∈ upperDigits) :
    ∃ w f, outputOf (.cwEncode cid rcp) s = some (.word w) ∧
      outputOf (.frameEncode cid rcp p) s = some (.bytes f) ∧
      outputOf (.lineClassify ((f.drop 2).take (6 + p.length))) s = some (.classified (.text w p)) := by
  have hsemi : semiByte ∉ p := fun h => absurd (hdigits _ h) (by decide)
  have hlf : lfByte ∉ p := fun h => absurd (hdigits _ h) (by decide)
  obtain ⟨w, f, hword, hframe, htext, -⟩ := frameRoundTrip cid rcp p s hfits
  exact ⟨w, f, hword, hframe, htext hsemi hlf⟩

/-! ### The status reader -/

/-- The reader of R98: a value exactly for 1 to 4 digits, and then the fields of the number they spell. -/
theorem statusOf_eq_some (p : Bytes) (f : StatusFields) :
    statusOf p = some f ↔ 1 ≤ p.length ∧ p.length ≤ 4 ∧
      ∃ vs : List Nibble, p.map hexVal = vs.map some ∧ f = statusFields (hexNumber vs) := by
  unfold statusOf
  split_ifs with hlen
  · simp only [false_iff]
    rintro ⟨hpos, hfour, -⟩
    omega
  · have hpos : 1 ≤ p.length := by omega
    have hfour : p.length ≤ 4 := by omega
    simp only [← hexDigits_eq_some, hpos, hfour, true_and]
    cases hexDigits p <;> simp [eq_comm]

/-- A list reads as digits exactly when each of its bytes is one. -/
theorem exists_digit_values_iff (p : Bytes) :
    (∃ vs : List Nibble, p.map hexVal = vs.map some) ↔ ∀ c ∈ p, hexVal c ≠ none := by
  simp only [← hexDigits_eq_some, ← Option.ne_none_iff_exists', ne_eq, hexDigits_eq_none, not_exists, not_and]

/-- `valid` of R98. -/
theorem statusOf_isSome_iff (p : Bytes) :
    (statusOf p).isSome = true ↔ 1 ≤ p.length ∧ p.length ≤ 4 ∧ ∀ c ∈ p, hexVal c ≠ none := by
  rw [← exists_digit_values_iff]
  constructor
  · intro h
    obtain ⟨f, hf⟩ := Option.isSome_iff_exists.mp h
    obtain ⟨hpos, hfour, vs, hvs, -⟩ := (statusOf_eq_some p f).mp hf
    exact ⟨hpos, hfour, vs, hvs⟩
  · rintro ⟨hpos, hfour, vs, hvs⟩
    exact Option.isSome_iff_exists.mpr ⟨_, (statusOf_eq_some p _).mpr ⟨hpos, hfour, vs, hvs, rfl⟩⟩

/-- The value of a status that was read is the number its digits spell: four digits fit the 16 bits (R98). -/
theorem statusOf_value_toNat (p : Bytes) (f : StatusFields) (h : statusOf p = some f) :
    ∃ vs : List Nibble, p.map hexVal = vs.map some ∧ f.value.toNat = spelt vs := by
  obtain ⟨-, hfour, vs, hvs, rfl⟩ := (statusOf_eq_some p f).mp h
  have hlen : vs.length = p.length := by simpa using (congrArg List.length hvs).symm
  exact ⟨vs, hvs, hexNumber_toNat vs (hlen ▸ hfour)⟩

/-- The bits of a status that was read are those of its value (R98). -/
theorem statusOf_bits (p : Bytes) (f : StatusFields) (h : statusOf p = some f) : f = statusFields f.value := by
  obtain ⟨-, -, vs, -, rfl⟩ := (statusOf_eq_some p f).mp h
  rfl

/-- The two digits of a byte spell it. -/
theorem hexNumber_byte_nibbles (v : Byte) :
    (hexNumber [v.extractLsb' 4 4, v.extractLsb' 0 4]).toNat = v.toNat := by
  have hv := v.isLt
  rw [hexNumber_toNat _ (by simp)]
  simp only [spelt, List.foldl_cons, List.foldl_nil, BitVec.extractLsb'_toNat, Nat.shiftRight_eq_div_pow]
  omega

/-- Two written digits are read as the byte they were written for (R100). -/
theorem statusOf_hex2 (v : Byte) : ∃ f, statusOf (hex2 v) = some f ∧ f.value.toNat = v.toNat := by
  have hvals : (hex2 v).map hexVal = [v.extractLsb' 4 4, v.extractLsb' 0 4].map some := by simp [hex2]
  exact ⟨_, (statusOf_eq_some _ _).mpr ⟨by simp, by simp, _, hvals, rfl⟩, hexNumber_byte_nibbles v⟩

end Sys2Proof.Machine
end

section
/-! The statements of `42_payload_codec.md`. -/

namespace Sys2Proof.Machine

/-- Settles O19: the reader accepts 1 to 4 digits, whose number fits its 16 bits, and the bits are those of the
value. -/
theorem statusDecodeReadsTheBitmask : Obligations.StatusDecodeReadsTheBitmask := by
  intro p s
  refine ⟨_, exec_statusDecode p s, statusOf_isSome_iff p, fun f hf => ?_⟩
  have hbits := statusOf_bits p f hf
  exact ⟨statusOf_value_toNat p f hf, congrArg StatusFields.locked hbits, congrArg StatusFields.tamper hbits,
    congrArg StatusFields.alarm hbits⟩

/-- Settles O27: a grant's two digits spell its seconds, and the empty payload of a deny has no digit. -/
theorem statusOfAllowRoundTrip : Obligations.StatusOfAllowRoundTrip := by
  intro v s
  obtain ⟨f, hf, hvalue⟩ := statusOf_hex2 v
  refine ⟨⟨_, f, outputOf_allowEncode true v s, ?_, hvalue⟩, ⟨_, outputOf_allowEncode false v s, rfl⟩⟩
  rw [outputOf_statusDecode, allowPayload_grant, hf]

/-- Settles O28: both encoders write at most 16 uppercase digits, which every legal bound on payloads admits. -/
theorem encodedPayloadsAreDigitsAndRoundTrip : Obligations.EncodedPayloadsAreDigitsAndRoundTrip := by
  intro i s p cid rcp hi hout hok
  obtain ⟨-, -, hmax⟩ := (config_ok_iff s.cfg).mp hok
  have hpayload : p.length ≤ 16 ∧ ∀ b ∈ p, b ∈ upperDigits := by
    rcases hi with ⟨g, v, rfl⟩ | ⟨y, mo, d, wd, h, mi, se, rfl⟩
    · obtain rfl : allowPayload g v = p := by simpa using hout
      exact ⟨(allowPayload_length_le g v).trans (by decide), mem_upperDigits_of_mem_allowPayload g v⟩
    · obtain rfl : timePayload y mo d wd h mi se = p := by simpa using hout
      exact ⟨le_rfl, mem_upperDigits_of_mem_timePayload y mo d wd h mi se⟩
  obtain ⟨hlen, hdigits⟩ := hpayload
  exact ⟨hdigits, digits_frameRoundTrip cid rcp p s (hlen.trans hmax) hdigits⟩

/-- Settles O18: the two digits of the seconds are written for a grant only. -/
theorem allowEncodeWritesSeconds : Obligations.AllowEncodeWritesSeconds := by
  intro grant secs s
  rw [exec_allowEncode, allowPayload_eq_spell]

/-- Settles O20: each field is written with the digits of its number, none checked. -/
theorem timeEncodeSpellsTheFields : Obligations.TimeEncodeSpellsTheFields := by
  intro year month day wday hour minute second s
  exact ⟨_, exec_timeEncode year month day wday hour minute second s,
    timePayload_eq_spell year month day wday hour minute second,
    timePayload_length year month day wday hour minute second⟩

end Sys2Proof.Machine
end

section
/-! SUPPORT. What taking a byte does in each case state (R113 to R117), as equations; how many events it emits by
state (R118); and a push and a pop made one after the other, in both orders (R125). -/

namespace Sys2Proof.Machine

/-! ### Taking a byte, case by case -/

theorem idleStep_ack (s : State) : idleStep ackByte s = s.emit .ack := rfl

theorem idleStep_nack (s : State) : idleStep nackByte s = s.emit .nack := rfl

theorem idleStep_c (s : State) : idleStep cByte s = { s with frState := .gotC } := rfl

theorem idleStep_junk (b : Byte) (s : State) (hack : b ≠ ackByte) (hnack : b ≠ nackByte) (hc : b ≠ cByte) :
    idleStep b s = s.emit (.junk b) := by
  simp [idleStep, hack, hnack, hc]

theorem takeByte_idle (b : Byte) (s : State) (hf : s.frState = .idle) : takeByte b s = idleStep b s := by
  rw [takeByte, hf]

/-- After a line-initial `'c'`, a byte other than `';'` makes the `'c'` junk and stands at the start of a line. -/
theorem takeByte_gotC_restart (b : Byte) (s : State) (hf : s.frState = .gotC) (hb : b ≠ semiByte) :
    takeByte b s = idleStep b { s.emit (.junk cByte) with frState := .idle } := by
  simp [takeByte, hf, gotCStep, hb]

theorem takeByte_inBody_overflow (b : Byte) (s : State) (hf : s.frState = .inBody) (hb : b ≠ lfByte)
    (hlen : s.cfg.bodyMax ≤ s.body.length) :
    takeByte b s = { s with frState := .discard, body := [], evq := s.evq ++ [.frameError .overflow] } := by
  simp [takeByte, hf, inBodyStep, hb, hlen, State.emit]

theorem takeByte_discard_lf (s : State) (hf : s.frState = .discard) :
    takeByte lfByte s = { s with frState := .idle } := by
  simp [takeByte, hf, discardStep]

theorem takeByte_discard_other (b : Byte) (s : State) (hf : s.frState = .discard) (hb : b ≠ lfByte) :
    takeByte b s = s := by
  simp [takeByte, hf, discardStep, hb]

/-- A ready reader answers the state after taking the byte, whatever it then shows on the output port. -/
theorem exec_pushByte_of_takeByte {b : Byte} {s t : State} (hready : s.inReady = true) (htake : takeByte b s = t) :
    ∃ o, exec (.pushByte b) s = .next { t with out := o } :=
  ⟨none, htake ▸ exec_pushByte_ready b s hready⟩

/-! ### How many events a byte emits -/

/-- Only after a line-initial `'c'` can a byte emit two events (R118). -/
theorem emittedBy_length_le_one (b : Byte) (s : State) (hf : s.frState ≠ .gotC) : (emittedBy b s).length ≤ 1 := by
  obtain ⟨f, bd, -, hmove⟩ := takeByte_cases b s
  simp only [ByteMove, hf, false_and, false_or] at hmove
  rcases hmove with ⟨-, -, -, e, he, -⟩ | ⟨-, -, -, -, he⟩ | ⟨-, -, -, -, he⟩ | ⟨-, -, -, -, -, he⟩ |
    ⟨-, -, -, -, -, he⟩ | ⟨-, -, -, -, he⟩ | ⟨-, -, -, -, he⟩ <;> simp [he]

/-- The rest of an overflowed line emits nothing (R117). -/
theorem emittedBy_discard (b : Byte) (s : State) (hf : s.frState = .discard) : emittedBy b s = [] := by
  obtain ⟨f, bd, -, hmove⟩ := takeByte_cases b s
  simp only [ByteMove, hf, reduceCtorEq, false_and, true_and, false_or] at hmove
  rcases hmove with ⟨-, -, -, he⟩ | ⟨-, -, -, he⟩ <;> exact he

/-! ### A push and a pop in one cycle, and one after the other -/

theorem outputOf_pushByte_ready (b : Byte) (s : State) (h : s.inReady = true) : outputOf (.pushByte b) s = none :=
  outputOf_of_next (exec_pushByte_ready b s h)

theorem outputOf_popEvent_cons (s : State) (ev : Event) (rest : List Event) (h : s.evq = ev :: rest) :
    outputOf .popEvent s = some (.popped ev) :=
  outputOf_of_next (exec_popEvent_cons s ev rest h)

theorem cycle_push_pop (b : Byte) (s : State) (h : s.inReady = true) :
    cycle ⟨some b, true, false⟩ s = { takeByte b s with evq := s.evq.tail ++ emittedBy b s } := by
  simp [cycle, h]

/-- A pop only frees a slot, so a ready reader stays ready (R19). -/
theorem inReady_of_tail (s : State) (ev : Event) (rest : List Event) (o : Option Output) (hq : s.evq = ev :: rest)
    (h : s.inReady = true) : ({ s with evq := rest, out := o } : State).inReady = true := by
  rw [inReady_iff, hq] at h
  have hroom : rest.length + 2 ≤ s.cfg.evqDepth := by simp only [List.length_cons] at h; omega
  exact (inReady_iff _).mpr hroom

theorem after_pop_push (b : Byte) (s : State) (ev : Event) (rest : List Event) (hq : s.evq = ev :: rest)
    (hready : s.inReady = true) :
    after [.popEvent, .pushByte b] s = { takeByte b s with evq := rest ++ emittedBy b s, out := none } := by
  rw [after_cons, exec_popEvent_cons s ev rest hq, nextOr_next, after_cons,
    exec_pushByte_ready b _ (inReady_of_tail s ev rest _ hq hready), takeByte_congr b s rest s.ops]
  simp

/-- The queue a byte leaves still has the same head. -/
theorem takeByte_evq_cons (b : Byte) (s : State) (ev : Event) (rest : List Event) (hq : s.evq = ev :: rest) :
    (takeByte b s).evq = ev :: (rest ++ emittedBy b s) := by
  rw [takeByte_evq, hq, List.cons_append]

theorem after_push_pop (b : Byte) (s : State) (ev : Event) (rest : List Event) (hq : s.evq = ev :: rest)
    (hready : s.inReady = true) :
    after [.pushByte b, .popEvent] s =
      { takeByte b s with evq := rest ++ emittedBy b s, out := some (.popped ev) } := by
  rw [after_cons, exec_pushByte_ready b s hready, nextOr_next, after_cons,
    exec_popEvent_cons { takeByte b s with out := none } ev _ (takeByte_evq_cons b s ev rest hq)]
  rfl

theorem observed_pop_push (b : Byte) (s : State) (ev : Event) (rest : List Event) (hq : s.evq = ev :: rest)
    (hready : s.inReady = true) : observed [.popEvent, .pushByte b] s = [ev] := by
  rw [observed, outputOf_popEvent_cons s ev rest hq, exec_popEvent_cons s ev rest hq, nextOr_next, observed,
    outputOf_pushByte_ready b _ (inReady_of_tail s ev rest _ hq hready)]
  rfl

theorem observed_push_pop (b : Byte) (s : State) (ev : Event) (rest : List Event) (hq : s.evq = ev :: rest)
    (hready : s.inReady = true) : observed [.pushByte b, .popEvent] s = [ev] := by
  rw [observed, outputOf_pushByte_ready b s hready, exec_pushByte_ready b s hready, nextOr_next, observed,
    outputOf_popEvent_cons { takeByte b s with out := none } ev _ (takeByte_evq_cons b s ev rest hq)]
  rfl

end Sys2Proof.Machine
end

section
/-! The statements of `43_frame_reader.md`. -/

namespace Sys2Proof.Machine

/-- Settles O40: the appended events are `emittedBy`, at most two, and `in_ready` left room for two. -/
theorem pushEmitsAtMostTwoAndLosesNone : Obligations.PushEmitsAtMostTwoAndLosesNone := by
  intro b s hready
  have htwo := emittedBy_length_le_two b s
  have hone := emittedBy_length_le_one b s
  have hroom := (inReady_iff s).mp hready
  refine ⟨emittedBy b s, _, exec_pushByte_ready b s hready, takeByte_evq b s, htwo, fun hf => hone (by simp [hf]),
    fun hf => hone (by simp [hf]), emittedBy_discard b s, ?_⟩
  calc (takeByte b s).evq.length = s.evq.length + (emittedBy b s).length := by rw [takeByte_evq, List.length_append]
    _ ≤ s.cfg.evqDepth := by omega

/-- Settles O52: the pop takes the head that was there before the push, the push appends the same events at the tail
in either order, and `RESET` in a cycle is `RESET` alone. -/
theorem coincidingOperationsAreInterleavings : Obligations.CoincidingOperationsAreInterleavings := by
  refine ⟨fun b s ev hready hhead => ?_, fun push pop s => ⟨rfl, none, exec_reset s⟩⟩
  obtain ⟨rest, hq⟩ := List.head?_eq_some_iff.mp hhead
  have hcycle : cycle ⟨some b, true, false⟩ s = { takeByte b s with evq := rest ++ emittedBy b s } := by
    rw [cycle_push_pop b s hready, hq, List.tail_cons]
  rw [hcycle]
  exact ⟨hhead, ⟨_, after_pop_push b s ev rest hq hready⟩, ⟨_, after_push_pop b s ev rest hq hready⟩,
    observed_pop_push b s ev rest hq hready, observed_push_pop b s ev rest hq hready⟩

/-- Settles O30: the four cases of `IDLE_STEP`. -/
theorem pushByteAtLineStart : Obligations.PushByteAtLineStart := by
  intro b s hf hready
  have htake := takeByte_idle b s hf
  refine ⟨?_, ?_, ?_, fun hack hnack hc => ?_⟩
  · rintro rfl
    exact exec_pushByte_of_takeByte hready (htake.trans (idleStep_ack s))
  · rintro rfl
    exact exec_pushByte_of_takeByte hready (htake.trans (idleStep_nack s))
  · rintro rfl
    exact exec_pushByte_of_takeByte hready (htake.trans (idleStep_c s))
  · exact exec_pushByte_of_takeByte hready (htake.trans (idleStep_junk b s hack hnack hc))

/-- Settles O31: `';'` begins the body; any other byte takes the start of a line after `JUNK('c')`. -/
theorem pushByteAfterC : Obligations.PushByteAfterC := by
  intro b s hf hready
  have hrestart (hb : b ≠ semiByte) {t : State}
      (hidle : idleStep b { s.emit (.junk cByte) with frState := .idle } = t) :
      ∃ o, exec (.pushByte b) s = .next { t with out := o } :=
    exec_pushByte_of_takeByte hready ((takeByte_gotC_restart b s hf hb).trans hidle)
  refine ⟨?_, ?_, ?_, ?_, fun hsemi hack hnack hc => ?_⟩
  · rintro rfl
    exact exec_pushByte_of_takeByte hready (takeByte_gotC_semi s hf)
  · rintro rfl
    simpa [State.emit] using hrestart (by decide) (idleStep_ack _)
  · rintro rfl
    simpa [State.emit] using hrestart (by decide) (idleStep_nack _)
  · rintro rfl
    simpa [State.emit, hf] using hrestart (by decide) (idleStep_c _)
  · simpa [State.emit] using hrestart hsemi (idleStep_junk b _ hack hnack hc)

/-- Settles O32: below `BODY_MAX` the byte is stored, at `BODY_MAX` the line overflows. -/
theorem pushByteInsideALine : Obligations.PushByteInsideALine := by
  intro b s hf hready hb
  exact ⟨fun hlen => exec_pushByte_of_takeByte hready (takeByte_inBody_fits b s hf hb hlen),
    fun hlen => exec_pushByte_of_takeByte hready (takeByte_inBody_overflow b s hf hb hlen)⟩

/-- Settles O33: the event appended at LF is the classifier's, which `LINE_CLASSIFY` shows for the same body. -/
theorem pushLfEndsTheLine : Obligations.PushLfEndsTheLine := by
  intro s hf hready
  obtain ⟨o, hexec⟩ := exec_pushByte_of_takeByte hready (takeByte_inBody_lf s hf)
  exact ⟨classify s.body, o, outputOf_lineClassify s.body s, hexec⟩

/-- Settles O34: LF ends the overflowed line and any other byte is dropped. -/
theorem pushByteWhileDiscarding : Obligations.PushByteWhileDiscarding := by
  intro b s hf hready
  refine ⟨?_, fun hb => exec_pushByte_of_takeByte hready (takeByte_discard_other b s hf hb)⟩
  rintro rfl
  exact exec_pushByte_of_takeByte hready (takeByte_discard_lf s hf)

/-- Settles O36: `RESET` is always enabled and clears the three parts of the reader. -/
theorem resetEmptiesTheReader : Obligations.ResetEmptiesTheReader :=
  fun s => ⟨none, exec_reset s⟩

/-- Settles O51: after the junk byte the rest is the frame of the word 0 with an empty payload, which every legal
`BODY_MAX` has room for. -/
theorem junkThenFrameExample : Obligations.JunkThenFrameExample := by
  intro c hc
  obtain ⟨hbody, -, -⟩ := (config_ok_iff c).mp hc
  have hinput : [0xFF#8, 0x63#8, 0x3B#8, 0x30#8, 0x30#8, 0x30#8, 0x30#8, 0x3B#8, 0x0D#8, 0x0A#8] =
      0xFF#8 :: frameBytes 0#5 0#4 [] := by decide
  have hjunk : takeByte 0xFF#8 (State.resetWith c) = (State.resetWith c).emit (.junk 0xFF#8) := rfl
  rw [hinput, feedEvents_eq_takeBytes _ _ hc, takeBytes_cons, hjunk,
    takeBytes_frameBytes _ _ _ _ rfl rfl List.not_mem_nil List.not_mem_nil hbody]
  rfl

end Sys2Proof.Machine
end

section
/-! SUPPORT. The decoder as the inverse of the encoder (R60, R61): what each operand reader accepts, and the decoder's
refusals, said once as equivalences (R62, R128). -/

namespace Sys2Proof

/-! ### What each reader accepts -/

theorem readW_eq_ok (mk : Word → Instr) (os : List Operand) (i : Instr) :
    readW mk os = .ok i ↔ ∃ w : Word, os = [.num w.toNat] ∧ i = mk w := by
  constructor
  · intro h
    unfold readW at h
    split at h
    · split_ifs at h with hw
      cases h
      exact ⟨_, by rw [BitVec.toNat_ofNat, Nat.mod_eq_of_lt hw], rfl⟩
    · cases h
  · rintro ⟨w, rfl, rfl⟩
    simp [readW, w.isLt]

theorem readCR_eq_ok (mk : CmdId → DoorId → Instr) (os : List Operand) (i : Instr) :
    readCR mk os = .ok i ↔ ∃ (c : CmdId) (r : DoorId), os = [.num c.toNat, .num r.toNat] ∧ i = mk c r := by
  constructor
  · intro h
    unfold readCR at h
    split at h
    · split_ifs at h with hw
      obtain ⟨hc, hr⟩ := hw
      cases h
      exact ⟨_, _, by simp only [BitVec.toNat_ofNat, Nat.mod_eq_of_lt, hc, hr], rfl⟩
    · cases h
  · rintro ⟨c, r, rfl, rfl⟩
    simp [readCR, c.isLt, r.isLt]

theorem readCRP_eq_ok (mk : CmdId → DoorId → Bytes → Instr) (os : List Operand) (i : Instr) :
    readCRP mk os = .ok i ↔
      ∃ (c : CmdId) (r : DoorId) (p : Bytes), os = [.num c.toNat, .num r.toNat, .bytes p] ∧ i = mk c r p := by
  constructor
  · intro h
    unfold readCRP at h
    split at h
    · split_ifs at h with hw
      obtain ⟨hc, hr⟩ := hw
      cases h
      exact ⟨_, _, _, by simp only [BitVec.toNat_ofNat, Nat.mod_eq_of_lt, hc, hr], rfl⟩
    · cases h
  · rintro ⟨c, r, p, rfl, rfl⟩
    simp [readCRP, c.isLt, r.isLt]

theorem readB_eq_ok (mk : Bytes → Instr) (os : List Operand) (i : Instr) :
    readB mk os = .ok i ↔ ∃ p : Bytes, os = [.bytes p] ∧ i = mk p := by
  constructor
  · intro h
    unfold readB at h
    split at h
    · cases h
      exact ⟨_, rfl, rfl⟩
    · cases h
  · rintro ⟨p, rfl, rfl⟩
    rfl

/-- A one-bit operand is the number of a truth value. -/
theorem toNat_beq_one_of_lt (g : Nat) (hg : g < 2 ^ 1) : (g == 1).toNat = g := by
  interval_cases g <;> rfl

theorem readA_eq_ok (mk : Bool → Byte → Instr) (os : List Operand) (i : Instr) :
    readA mk os = .ok i ↔ ∃ (g : Bool) (s : Byte), os = [.num g.toNat, .num s.toNat] ∧ i = mk g s := by
  constructor
  · intro h
    unfold readA at h
    split at h
    · split_ifs at h with hw
      obtain ⟨hg, hs⟩ := hw
      cases h
      exact ⟨_, _, by rw [toNat_beq_one_of_lt _ hg, BitVec.toNat_ofNat, Nat.mod_eq_of_lt hs], rfl⟩
    · cases h
  · rintro ⟨g, s, rfl, rfl⟩
    cases g <;> simp [readA, s.isLt]

theorem readT_eq_ok (mk : Word → Byte → Byte → Byte → Byte → Byte → Byte → Instr) (os : List Operand) (i : Instr) :
    readT mk os = .ok i ↔ ∃ (y : Word) (mo d wd h mi s : Byte),
      os = [.num y.toNat, .num mo.toNat, .num d.toNat, .num wd.toNat, .num h.toNat, .num mi.toNat, .num s.toNat] ∧
        i = mk y mo d wd h mi s := by
  constructor
  · intro hread
    unfold readT at hread
    split at hread
    · split_ifs at hread with hw
      obtain ⟨hy, hmo, hd, hwd, hh, hmi, hs⟩ := hw
      cases hread
      exact ⟨_, _, _, _, _, _, _,
        by simp only [BitVec.toNat_ofNat, Nat.mod_eq_of_lt, hy, hmo, hd, hwd, hh, hmi, hs], rfl⟩
    · cases hread
  · rintro ⟨y, mo, d, wd, h, mi, s, rfl, rfl⟩
    simp [readT, y.isLt, mo.isLt, d.isLt, wd.isLt, h.isLt, mi.isLt, s.isLt]

theorem readP_eq_ok (mk : Byte → Instr) (os : List Operand) (i : Instr) :
    readP mk os = .ok i ↔ ∃ b : Byte, os = [.num b.toNat] ∧ i = mk b := by
  constructor
  · intro h
    unfold readP at h
    split at h
    · split_ifs at h with hw
      cases h
      exact ⟨_, by rw [BitVec.toNat_ofNat, Nat.mod_eq_of_lt hw], rfl⟩
    · cases h
  · rintro ⟨b, rfl, rfl⟩
    simp [readP, b.isLt]

theorem readN_eq_ok (j : Instr) (os : List Operand) (i : Instr) : readN j os = .ok i ↔ os = [] ∧ i = j := by
  constructor
  · intro h
    unfold readN at h
    split at h
    · cases h
      exact ⟨rfl, rfl⟩
    · cases h
  · rintro ⟨rfl, rfl⟩
    rfl

/-! ### Decoding and encoding are inverse -/

/-- Each operation is read back by the reader of its row. -/
theorem decode_encode (i : Instr) : decode (encode i) = .ok i := by
  cases i with
  | cwDecode w => exact (readW_eq_ok _ _ _).mpr ⟨w, rfl, rfl⟩
  | cwEncode cid rcp => exact (readCR_eq_ok _ _ _).mpr ⟨cid, rcp, rfl, rfl⟩
  | hex4Render w => exact (readW_eq_ok _ _ _).mpr ⟨w, rfl, rfl⟩
  | hex4Parse d => exact (readB_eq_ok _ _ _).mpr ⟨d, rfl, rfl⟩
  | frameEncode cid rcp payload => exact (readCRP_eq_ok _ _ _).mpr ⟨cid, rcp, payload, rfl, rfl⟩
  | lineClassify body => exact (readB_eq_ok _ _ _).mpr ⟨body, rfl, rfl⟩
  | allowEncode grant secs => exact (readA_eq_ok _ _ _).mpr ⟨grant, secs, rfl, rfl⟩
  | statusDecode p => exact (readB_eq_ok _ _ _).mpr ⟨p, rfl, rfl⟩
  | timeEncode year month day wday hour minute second =>
    exact (readT_eq_ok _ _ _).mpr ⟨year, month, day, wday, hour, minute, second, rfl, rfl⟩
  | pushByte b => exact (readP_eq_ok _ _ _).mpr ⟨b, rfl, rfl⟩
  | popEvent => exact (readN_eq_ok _ _ _).mpr ⟨rfl, rfl⟩
  | reset => exact (readN_eq_ok _ _ _).mpr ⟨rfl, rfl⟩

/-- What the reader of a code accepts is the operand list that the encoder writes beside that code. -/
theorem encode_of_decode (o : RawOp) (i : Instr) (h : decode o = .ok i) : encode i = o := by
  obtain ⟨⟨⟨code, hcode⟩⟩, os⟩ := o
  interval_cases code
  · cases h
  · obtain ⟨w, rfl, rfl⟩ := (readW_eq_ok _ _ _).mp h; rfl
  · obtain ⟨cid, rcp, rfl, rfl⟩ := (readCR_eq_ok _ _ _).mp h; rfl
  · obtain ⟨w, rfl, rfl⟩ := (readW_eq_ok _ _ _).mp h; rfl
  · obtain ⟨d, rfl, rfl⟩ := (readB_eq_ok _ _ _).mp h; rfl
  · obtain ⟨cid, rcp, payload, rfl, rfl⟩ := (readCRP_eq_ok _ _ _).mp h; rfl
  · obtain ⟨body, rfl, rfl⟩ := (readB_eq_ok _ _ _).mp h; rfl
  · obtain ⟨grant, secs, rfl, rfl⟩ := (readA_eq_ok _ _ _).mp h; rfl
  · obtain ⟨p, rfl, rfl⟩ := (readB_eq_ok _ _ _).mp h; rfl
  · obtain ⟨year, month, day, wday, hour, minute, second, rfl, rfl⟩ := (readT_eq_ok _ _ _).mp h
    rfl
  · obtain ⟨b, rfl, rfl⟩ := (readP_eq_ok _ _ _).mp h; rfl
  · obtain ⟨rfl, rfl⟩ := (readN_eq_ok _ _ _).mp h; rfl
  · obtain ⟨rfl, rfl⟩ := (readN_eq_ok _ _ _).mp h; rfl
  all_goals cases h

theorem decode_eq_ok_iff (o : RawOp) (i : Instr) : decode o = .ok i ↔ o = encode i :=
  ⟨fun h => (encode_of_decode o i h).symm, fun h => h ▸ decode_encode i⟩

/-- The encoder writes operands of its row's format that fit. -/
theorem wellFormed_encode (i : Instr) : (encode i).wellFormed = true := by
  cases i with
  | cwDecode w => exact Laws.EncodeWellFormed.cwDecode w
  | cwEncode cid rcp => exact Laws.EncodeWellFormed.cwEncode cid rcp
  | hex4Render w => exact Laws.EncodeWellFormed.hex4Render w
  | hex4Parse d => exact Laws.EncodeWellFormed.hex4Parse d
  | frameEncode cid rcp payload => exact Laws.EncodeWellFormed.frameEncode cid rcp payload
  | lineClassify body => exact Laws.EncodeWellFormed.lineClassify body
  | allowEncode grant secs => exact Laws.EncodeWellFormed.allowEncode grant secs
  | statusDecode p => exact Laws.EncodeWellFormed.statusDecode p
  | timeEncode year month day wday hour minute second =>
    exact Laws.EncodeWellFormed.timeEncode year month day wday hour minute second
  | pushByte b => exact Laws.EncodeWellFormed.pushByte b
  | popEvent => exact Laws.EncodeWellFormed.popEvent
  | reset => exact Laws.EncodeWellFormed.reset

/-! ### What the decoder refuses -/

/-- The decoder's refusals: a code without a format, a wrong shape, or that shape with a wide operand. -/
theorem decode_eq_error_iff (o : RawOp) (e : DecodeError) :
    decode o = .error e ↔
      (formatOf o.op = none ∧ e = .reservedOp) ∨
      (∃ f, formatOf o.op = some f ∧ shapeOk f.types o.operands = false ∧ e = .operandFormat) ∨
      (∃ f, formatOf o.op = some f ∧ shapeOk f.types o.operands = true ∧ widthsOk f.types o.operands = false ∧
        e = .operandWidth) := by
  rcases decode_cases o with ⟨f, hf, read, hread, hd⟩ | ⟨hnone, hd⟩
  · obtain ⟨hformat, hwidth, hok⟩ := hread o.operands
    cases hshape : shapeOk f.types o.operands with
    | false => simpa [hd, hf, hshape, hformat hshape] using eq_comm
    | true =>
      cases hwidths : widthsOk f.types o.operands with
      | false => simpa [hd, hf, hshape, hwidths, hwidth hshape hwidths] using eq_comm
      | true =>
        obtain ⟨i, hi⟩ := hok hshape hwidths
        simp [hd, hf, hshape, hwidths, hi]
  · simpa [hd, hnone] using eq_comm

theorem wellFormed_iff (o : RawOp) :
    o.wellFormed = true ↔
      ∃ f, formatOf o.op = some f ∧ shapeOk f.types o.operands = true ∧ widthsOk f.types o.operands = true := by
  cases hf : formatOf o.op with
  | none => simp [RawOp.wellFormed, hf]
  | some f => simp [RawOp.wellFormed, hf]

end Sys2Proof
end

section
/-! The statements of `30_encoding.md` section 5 on decoding and encoding. -/

namespace Sys2Proof.Machine

/-- Settles O1: each operation is read back by the reader of its row. -/
theorem decodeOfEncodeIsTheInstruction : Obligations.DecodeOfEncodeIsTheInstruction :=
  decode_encode

/-- Settles O2: what a reader accepts is what the encoder writes beside its code. -/
theorem encodeOfDecodeIsTheOffer : Obligations.EncodeOfDecodeIsTheOffer :=
  encode_of_decode

/-- Settles O3: a fitting offer decodes, and what decodes is an encoding, whose operands fit. -/
theorem decoderAcceptsExactlyTheFormats : Obligations.DecoderAcceptsExactlyTheFormats := by
  intro o
  constructor
  · rintro ⟨i, hi⟩
    rw [(decode_eq_ok_iff o i).mp hi]
    exact wellFormed_encode i
  · intro h
    obtain ⟨f, hf, hshape, hwidths⟩ := (wellFormed_iff o).mp h
    exact decode_ok_of_fits o f hf hshape hwidths

/-- Settles O5: a wide operand in the right shape is one of the decoder's refusals, and the step answers it. -/
theorem wideOperandsAreRefused : Obligations.WideOperandsAreRefused := by
  intro o f s rest hf hshape hwidths
  have hd : decode o = .error .operandWidth :=
    (decode_eq_error_iff o _).mpr (.inr (.inr ⟨f, hf, hshape, hwidths, rfl⟩))
  exact ⟨hd, fun hops => step_cons_error s o rest _ hops hd⟩

/-- Settles O6: the offers evaluate, one by one. -/
theorem writtenOffersDecode : Obligations.WrittenOffersDecode := by
  unfold Obligations.WrittenOffersDecode
  decide

end Sys2Proof.Machine
end

section
/-! SUPPORT. What an operation is refused for and that a step keeps the parameters, said once; what a byte that leaves
the reader alone is, and the bound on a packed word. -/

namespace Sys2Proof.Machine

/-! ### Refusals -/

/-- The one operation that is refused is a `FRAME_ENCODE` whose payload is too long (R75, R128). -/
theorem exec_eq_refused_iff (i : Instr) (s : State) (r : Refusal) :
    exec i s = .refused r ↔
      ∃ cid rcp p, i = .frameEncode cid rcp p ∧ s.cfg.txPayloadMax < p.length ∧ r = .payloadTooLong := by
  constructor
  · intro h
    cases i with
    | frameEncode cid rcp p =>
      rcases Nat.lt_or_ge s.cfg.txPayloadMax p.length with hlong | hfits
      · rw [exec_frameEncode_tooLong cid rcp p s hlong] at h
        cases h
        exact ⟨cid, rcp, p, rfl, hlong, rfl⟩
      · rw [exec_frameEncode_fits cid rcp p s hfits] at h
        cases h
    | pushByte b =>
      cases hr : s.inReady with
      | true => rw [exec_pushByte_ready b s hr] at h; cases h
      | false => rw [exec_pushByte_held b s hr] at h; cases h
    | popEvent =>
      cases hq : s.evq with
      | nil => rw [exec_popEvent_nil s hq] at h; cases h
      | cons ev rest => rw [exec_popEvent_cons s ev rest hq] at h; cases h
    | _ => cases h
  · rintro ⟨cid, rcp, p, rfl, hlong, rfl⟩
    exact exec_frameEncode_tooLong cid rcp p s hlong

/-- The one check of `Instr.wellFormed` is the payload bound of `FRAME_ENCODE`. -/
theorem wellFormed_eq_false_iff (i : Instr) (c : Config) :
    i.wellFormed c = false ↔ ∃ cid rcp p, i = .frameEncode cid rcp p ∧ c.txPayloadMax < p.length := by
  cases i <;> simp [Instr.wellFormed]

/-- There is no fault (R126), and a payload within its bound is no reason to refuse. -/
theorem exec_next_of_wellFormed (i : Instr) (s : State) (h : i.wellFormed s.cfg = true) :
    ∃ t, exec i s = .next t := by
  cases hexec : exec i s with
  | next t => exact ⟨t, rfl⟩
  | fault e => cases e
  | refused r =>
    obtain ⟨cid, rcp, p, hi, hlong, -⟩ := (exec_eq_refused_iff i s r).mp hexec
    have hill := (wellFormed_eq_false_iff i s.cfg).mpr ⟨cid, rcp, p, hi, hlong⟩
    rw [h] at hill
    cases hill

/-- A step is refused because the oldest offer does not decode or because its operation is refused. -/
theorem step_eq_refused_iff (s : State) (r : Refusal) :
    step s = .refused r ↔ ∃ o rest, s.ops = o :: rest ∧
      ((∃ e, decode o = .error e ∧ r = refusalOf e) ∨
       (∃ i, decode o = .ok i ∧ exec i { s with ops := rest } = .refused r)) := by
  cases hops : s.ops with
  | nil => simp [step_nil s hops]
  | cons o rest =>
    cases hd : decode o with
    | error e => simpa [step_cons_error s o rest e hops hd, hd] using eq_comm
    | ok i => simp [step_cons_ok s o rest i hops hd, hd]

/-- A run goes on from the state that its first step answers. -/
theorem run_succ_of_next {M : Host.Core} {s t : M.State} (n : Nat) (h : M.step s = .next t) :
    M.run (n + 1) s = M.run n t := by
  simp [Host.Core.run, h]

/-! ### A codec operation and the holds -/

/-- A codec operation does not hold. -/
theorem exec_codec_not_held (i : Instr) (s t : State) (hi : i.isCodec = true) (h : exec i s = .next t) (k : Hold) :
    t.out ≠ some (.held k) := by
  cases i with
  | frameEncode cid rcp p =>
    rcases Nat.lt_or_ge s.cfg.txPayloadMax p.length with hlong | hfits
    · rw [exec_frameEncode_tooLong cid rcp p s hlong] at h
      cases h
    · rw [exec_frameEncode_fits cid rcp p s hfits] at h
      cases h
      exact nofun
  | pushByte b => cases hi
  | popEvent => cases hi
  | reset => cases hi
  | _ => cases h; exact nofun

/-! ### What every operation keeps -/

/-- No operation touches the parameters (R33) or the operations still offered. -/
theorem exec_keeps_cfg_ops (i : Instr) (s t : State) (h : exec i s = .next t) : t.cfg = s.cfg ∧ t.ops = s.ops := by
  rcases exec_next_cases i s t h with ⟨o, rfl⟩ | ⟨b, -, -, rfl⟩ | ⟨ev, rest, -, -, rfl⟩ | ⟨-, rfl⟩
  · exact ⟨rfl, rfl⟩
  · exact ⟨takeByte_cfg b s, takeByte_ops b s⟩
  · exact ⟨rfl, rfl⟩
  · exact ⟨rfl, rfl⟩

/-- Of all moves, only that of a byte dropped while discarding leaves the reader as it was (R117). -/
theorem ByteMove.unchanged_iff {b : Byte} {s : State} {f : FrState} {bd : Bytes} {es : List Event}
    (h : ByteMove b s f bd es) :
    (f = s.frState ∧ bd = s.body ∧ es = []) ↔ (s.frState = .discard ∧ b ≠ lfByte) := by
  rcases h with ⟨hf, -, -, e, he, -⟩ | ⟨hf, -, hf', -, -⟩ | ⟨hf, -, hf', -, -⟩ | ⟨hf, -, -, -, e, he, -⟩ |
    ⟨hf, -, -, -, he⟩ | ⟨hf, -, -, -, he⟩ | ⟨hf, -, -, -, hbd, -⟩ | ⟨hf, -, -, -, -, he⟩ | ⟨hf, hb, hf', -, -⟩ |
    ⟨hf, hb, hf', hbd, he⟩
  all_goals simp [*]

/-! ### A packed word -/

/-- A packed word is a number of nine bits. -/
theorem cwPack_toNat_lt (cid : CmdId) (rcp : DoorId) : (cwPack cid rcp).toNat < 2 ^ 9 :=
  Nat.lt_pow_two_of_testBit _ fun i hi => cwPack_getLsbD_of_ge cid rcp i hi

theorem cwPack_broadcast_toNat (cid : CmdId) : (cwPack cid 0#4).toNat = cid.toNat := by
  rw [cwPack_broadcast]
  exact BitVec.toNat_setWidth_of_le (by decide)

end Sys2Proof.Machine
end

section
/-! The statements on single steps, single operations and the bytes on the wire. -/

namespace Sys2Proof.Machine

/-- Settles O9: the decoder refuses by name, and of the operations it accepts only the encoded `FRAME_ENCODE` with a
payload too long is refused. -/
theorem stepRefusesExactlyForTheListedReasons : Obligations.StepRefusesExactlyForTheListedReasons := by
  intro s r
  simp only [step_eq_refused_iff, decode_eq_error_iff, decode_eq_ok_iff, exec_eq_refused_iff]
  refine exists_congr fun o => exists_congr fun rest => and_congr_right fun _ => ?_
  constructor
  · rintro (⟨e, ⟨hf, rfl⟩ | ⟨f, hf, hshape, rfl⟩ | ⟨f, hf, hshape, hwidths, rfl⟩, rfl⟩ |
      ⟨i, ho, cid, rcp, p, rfl, hlong, rfl⟩)
    · exact .inl ⟨hf, rfl⟩
    · exact .inr (.inl ⟨f, hf, hshape, rfl⟩)
    · exact .inr (.inr (.inl ⟨f, hf, hshape, hwidths, rfl⟩))
    · exact .inr (.inr (.inr ⟨cid, rcp, p, ho, hlong, rfl⟩))
  · rintro (⟨hf, rfl⟩ | ⟨f, hf, hshape, rfl⟩ | ⟨f, hf, hshape, hwidths, rfl⟩ | ⟨cid, rcp, p, ho, hlong, rfl⟩)
    · exact .inl ⟨_, .inl ⟨hf, rfl⟩, rfl⟩
    · exact .inl ⟨_, .inr (.inl ⟨f, hf, hshape, rfl⟩), rfl⟩
    · exact .inl ⟨_, .inr (.inr ⟨f, hf, hshape, hwidths, rfl⟩), rfl⟩
    · exact .inr ⟨_, ho, cid, rcp, p, rfl, hlong, rfl⟩

/-- Settles O7: the oldest offer is decoded and performed on the state without it. -/
theorem stepPerformsTheDecodedOffer : Obligations.StepPerformsTheDecodedOffer :=
  step_cons_ok

/-- Settles O46: a step without an offer changes the port alone, and an operation keeps parameters and offers. -/
theorem stepsNeverChangeTheParameters : Obligations.StepsNeverChangeTheParameters := by
  intro s t h
  rcases step_next_cases s t h with ⟨hops, rfl⟩ | ⟨o, rest, i, hops, -, hexec⟩
  · exact ⟨rfl, by simp [hops]⟩
  · obtain ⟨hcfg, htail⟩ := exec_keeps_cfg_ops i _ t hexec
    exact ⟨hcfg, by simp [htail, hops]⟩

/-- Settles O44: the reset state has an empty body and an empty queue. -/
theorem resetStateSatisfiesTheInvariant : Obligations.ResetStateSatisfiesTheInvariant := by
  have hreset (c : Config) (hc : c.ok = true) : (State.resetWith c).Inv :=
    ⟨hc, Nat.zero_le _, fun _ => rfl, Nat.zero_le _, fun ev hev => absurd hev List.not_mem_nil⟩
  exact ⟨hreset, hreset Config.vectors (by decide)⟩

/-- Settles O10: a codec operation never holds, and an enabled push, pop or `RESET` does not either. -/
theorem everyWellFormedOperationCompletes : Obligations.EveryWellFormedOperationCompletes := by
  intro i s
  refine ⟨fun hwf hpush hpop => ?_, exec_next_of_wellFormed i s, fun hill => ?_⟩
  · cases hcodec : i.isCodec with
    | true =>
      obtain ⟨t, ht⟩ := exec_next_of_wellFormed i s hwf
      exact ⟨t, ht, exec_codec_not_held i s t hcodec ht⟩
    | false =>
      cases i with
      | pushByte b => exact ⟨_, exec_pushByte_ready b s (hpush b rfl), nofun⟩
      | popEvent =>
        obtain ⟨ev, rest, hq⟩ := List.exists_cons_of_ne_nil (hpop rfl)
        exact ⟨_, exec_popEvent_cons s ev rest hq, nofun⟩
      | reset => exact ⟨_, exec_reset s, nofun⟩
      | _ => cases hcodec
  · obtain ⟨cid, rcp, p, rfl, hlong⟩ := (wellFormed_eq_false_iff i s.cfg).mp hill
    exact exec_frameEncode_tooLong cid rcp p s hlong

/-- Settles O41: of the moves a byte can make, one leaves state, body and queue alone. -/
theorem enabledPushChangesTheReader : Obligations.EnabledPushChangesTheReader := by
  intro b s t hready h
  obtain ⟨f, bd, htake, hmove⟩ := takeByte_cases b s
  obtain rfl : { takeByte b s with out := none } = t := by simpa [exec_pushByte_ready b s hready] using h
  rw [← hmove.unchanged_iff, htake]
  simp

/-- Settles O8: each step finds no offer and empties the output port alone. -/
theorem absentInputKeepsTheState : Obligations.AbsentInputKeepsTheState := by
  intro n s hops
  induction n generalizing s with
  | zero => exact ⟨s, rfl, rfl, rfl, rfl, hops⟩
  | succ n ih =>
    obtain ⟨t, hrun, hf, hbody, hevq, ht⟩ := ih { s with out := none } hops
    exact ⟨t, (run_succ_of_next (M := Sys2Proof.core) n (step_nil s hops)).trans hrun, hf, hbody, hevq, ht⟩

/-- Settles O35: the pop of a queue with a head, and of an empty one. -/
theorem popEventHandsOverTheOldest : Obligations.PopEventHandsOverTheOldest := by
  intro s
  refine ⟨fun ev rest hq => ?_, fun hq => ?_⟩
  · exact ⟨_, exec_popEvent_cons s ev rest hq, rfl, inReady_iff _⟩
  · exact ⟨_, exec_popEvent_nil s hq, rfl⟩

/-- Settles O37: what an enabled push, a held push, a held pop and `RESET` answer. -/
theorem outputPortOfReaderOperations : Obligations.OutputPortOfReaderOperations := by
  intro s
  refine ⟨fun b => outputOf_pushByte_ready b s, fun b => exec_pushByte_held b s, fun h => ?_, rfl⟩
  exact exec_popEvent_nil s (by simpa [h] using evValid_iff s)

/-- Settles O39: a hold names itself on the port alone; the pop of the second slot and `RESET` free two slots, and an
event that a push emits is queued. -/
theorem holdsChangeNothingAndAreLifted : Obligations.HoldsChangeNothingAndAreLifted := by
  intro s
  refine ⟨fun b hheld => ⟨⟨_, exec_pushByte_held b s hheld⟩, fun t ht hlen hne => ?_, fun t ht hok => ?_⟩,
    fun hempty => ⟨⟨_, exec_popEvent_nil s (by simpa [hempty] using evValid_iff s)⟩, fun b t ht hready hemit => ?_⟩⟩
  · obtain ⟨ev, rest, hq⟩ := List.exists_cons_of_ne_nil hne
    rw [exec_popEvent_cons s ev rest hq] at ht
    cases ht
    rw [hq] at hlen
    exact (inReady_iff _).mpr hlen.le
  · rw [exec_reset] at ht
    cases ht
    obtain ⟨-, hdepth, -⟩ := (config_ok_iff s.cfg).mp hok
    exact (inReady_iff _).mpr hdepth
  · rw [exec_pushByte_ready b s hready] at ht
    cases ht
    simp [evValid_iff, takeByte_evq, hemit]

/-- Settles O23: a packed word has nine bits, and a broadcast's is the id. -/
theorem encodedWordIsBounded : Obligations.EncodedWordIsBounded := by
  intro cid rcp s
  refine ⟨_, outputOf_cwEncode cid rcp s, fun _ => Nat.le_of_lt_succ (cwPack_toNat_lt cid rcp), ?_⟩
  rintro rfl
  rw [cwPack_broadcast_toNat]
  exact Nat.le_of_lt_succ cid.isLt

/-- Settles O29: every legal bound admits the 16 bytes of the longest payload, and the frame stands around it. -/
theorem repliesAndHeartbeatOnTheWire : Obligations.RepliesAndHeartbeatOnTheWire := by
  intro s hok
  obtain ⟨-, -, hmax⟩ := (config_ok_iff s.cfg).mp hok
  have hallow (d : DoorId) (grant : Bool) (secs : Byte) :
      outputOf (.frameEncode 0#5 d (allowPayload grant secs)) s =
        some (.bytes (frameBytes 0#5 d (allowPayload grant secs))) :=
    outputOf_frameEncode_fits _ _ _ _ (((allowPayload_length_le grant secs).trans (by decide)).trans hmax)
  refine ⟨fun d secs => ⟨_, outputOf_cwEncode 0#5 d s, ?_⟩, fun secs => ?_,
    fun d => ⟨_, outputOf_cwEncode 0#5 d s, ?_⟩,
    fun y mo d wd h mi se => ⟨_, outputOf_timeEncode y mo d wd h mi se s, ?_, ?_⟩⟩
  · rw [replyGrant, hallow, ← hex4_eq_spell, ← hex2_eq_spell]
    rfl
  · rw [replyGrant, hallow, ← hex2_eq_spell]
    rfl
  · rw [replyDeny, hallow, ← hex4_eq_spell]
    rfl
  · exact outputOf_frameEncode_fits _ _ _ _ ((timePayload_length ..).le.trans hmax)
  · rw [timePayload_length]

end Sys2Proof.Machine
end

section
/-! SUPPORT. What one operation of a run observes, emits and takes, said once beside the state it leads to, and what
that means for whole runs: without a `RESET` a run is its taken bytes, with the pops moving events from the queue to
the observation (R42, R145). -/

namespace Sys2Proof.Machine

/-! ### One operation of a run -/

@[simp] theorem observed_nil (s : State) : observed [] s = [] := rfl
@[simp] theorem observed_cons (i : Instr) (is : List Instr) (s : State) :
    observed (i :: is) s = ((outputOf i s).bind Output.popped?).toList ++ observed is (nextOr s (exec i s)) := rfl

@[simp] theorem emitted_nil (s : State) : emitted [] s = [] := rfl
@[simp] theorem emitted_cons (i : Instr) (is : List Instr) (s : State) :
    emitted (i :: is) s = eventsOf s i ++ emitted is (nextOr s (exec i s)) := rfl

@[simp] theorem taken_nil (s : State) : taken [] s = [] := rfl
@[simp] theorem taken_cons (i : Instr) (is : List Instr) (s : State) :
    taken (i :: is) s = takenBy s i ++ taken is (nextOr s (exec i s)) := rfl

/-- Only a push takes a byte. -/
theorem takenBy_of_not_push (i : Instr) (s : State) (h : ∀ b, i ≠ .pushByte b) : takenBy s i = [] := by
  cases i with
  | pushByte b => exact absurd rfl (h b)
  | _ => rfl

/-- An operation that changes the output port alone: a codec operation, refused or not, or one that holds. -/
def QuietIn (s : State) (i : Instr) : Prop :=
  (∃ o, nextOr s (exec i s) = { s with out := o }) ∧ (outputOf i s).bind Output.popped? = none ∧
    eventsOf s i = [] ∧ takenBy s i = []

theorem quietIn_codec (i : Instr) (s : State) (h : i.isCodec = true) : QuietIn s i := by
  have htaken : takenBy s i = [] := takenBy_of_not_push i s fun b hb => by rw [hb] at h; cases h
  rcases exec_codec_cases i s h with ⟨o, hexec, ho⟩ | hexec
  · exact ⟨⟨o, by rw [hexec]; rfl⟩, by rw [outputOf_of_next hexec]; exact ho, eventsOf_codec i s h, htaken⟩
  · exact ⟨⟨s.out, by rw [hexec]; rfl⟩, by rw [outputOf, hexec]; rfl, eventsOf_codec i s h, htaken⟩

theorem quietIn_pushByte_held (b : Byte) (s : State) (h : s.inReady = false) : QuietIn s (.pushByte b) := by
  have hexec := exec_pushByte_held b s h
  exact ⟨⟨_, by rw [hexec]; rfl⟩, by rw [outputOf_of_next hexec]; rfl, by simp [eventsOf, h], by simp [takenBy, h]⟩

theorem quietIn_popEvent_nil (s : State) (h : s.evq = []) : QuietIn s .popEvent := by
  have hexec := exec_popEvent_nil s h
  exact ⟨⟨_, by rw [hexec]; rfl⟩, by rw [outputOf_of_next hexec]; rfl, rfl, rfl⟩

/-- Everything an operation of a run can do: nothing but to the output port, take a byte, pop, or reset. -/
theorem nextOr_exec_cases (i : Instr) (s : State) :
    QuietIn s i ∨
    (∃ b, i = .pushByte b ∧ s.inReady = true ∧ nextOr s (exec i s) = { takeByte b s with out := none } ∧
      (outputOf i s).bind Output.popped? = none ∧ eventsOf s i = emittedBy b s ∧ takenBy s i = [b]) ∨
    (∃ ev rest, i = .popEvent ∧ s.evq = ev :: rest ∧
      nextOr s (exec i s) = { s with evq := rest, out := some (.popped ev) } ∧
      (outputOf i s).bind Output.popped? = some ev ∧ eventsOf s i = [] ∧ takenBy s i = []) ∨
    (i = .reset ∧ nextOr s (exec i s) = { s.clear with out := none }) := by
  cases i with
  | pushByte b =>
    cases hr : s.inReady with
    | true =>
      have hexec := exec_pushByte_ready b s hr
      exact .inr (.inl ⟨b, rfl, rfl, by rw [hexec]; rfl, by rw [outputOf_of_next hexec]; rfl, by simp [eventsOf, hr],
        by simp [takenBy, hr]⟩)
    | false => exact .inl (quietIn_pushByte_held b s hr)
  | popEvent =>
    cases hq : s.evq with
    | nil => exact .inl (quietIn_popEvent_nil s hq)
    | cons ev rest =>
      have hexec := exec_popEvent_cons s ev rest hq
      exact .inr (.inr (.inl ⟨ev, rest, rfl, rfl, by rw [hexec]; rfl, by rw [outputOf_of_next hexec]; rfl, rfl, rfl⟩))
  | reset => exact .inr (.inr (.inr ⟨rfl, rfl⟩))
  | _ => exact .inl (quietIn_codec _ s rfl)

/-- A pop leaves the tail of the queue, an empty queue included. -/
theorem nextOr_popEvent_evq (s : State) : (nextOr s (exec .popEvent s)).evq = s.evq.tail := by
  cases hq : s.evq with
  | nil => rw [exec_popEvent_nil s hq, nextOr_next, hq]; rfl
  | cons ev rest => rw [exec_popEvent_cons s ev rest hq]; rfl

theorem nextOr_exec_cfg (i : Instr) (s : State) : (nextOr s (exec i s)).cfg = s.cfg := by
  cases hexec : exec i s with
  | next t => exact (exec_keeps_cfg_ops i s t hexec).1
  | fault e => cases e
  | refused r => rfl

/-- An operation that pushes no byte does not lengthen the queue. -/
theorem nextOr_exec_evq_length_le (i : Instr) (s : State) (h : ∀ b, i ≠ .pushByte b) :
    (nextOr s (exec i s)).evq.length ≤ s.evq.length := by
  rcases nextOr_exec_cases i s with ⟨⟨o, hnext⟩, -⟩ | ⟨b, hb, -⟩ | ⟨ev, rest, -, hq, hnext, -⟩ | ⟨-, hnext⟩
  · rw [hnext]
  · exact absurd hb (h b)
  · simp [hnext, hq]
  · simp [hnext]

/-! ### Runs without `RESET` -/

/-- What one operation hands over and leaves queued is what was queued and what it emits. -/
theorem popped_append_evq (i : Instr) (s : State) (h : i ≠ .reset) :
    ((outputOf i s).bind Output.popped?).toList ++ (nextOr s (exec i s)).evq = s.evq ++ eventsOf s i := by
  rcases nextOr_exec_cases i s with ⟨⟨o, hnext⟩, hpop, hev, -⟩ | ⟨b, -, -, hnext, hpop, hev, -⟩ |
    ⟨ev, rest, -, hq, hnext, hpop, hev, -⟩ | ⟨hreset, -⟩
  · simp [hnext, hpop, hev]
  · simp [hnext, hpop, hev, takeByte_evq]
  · simp [hnext, hpop, hev, hq]
  · exact absurd hreset h

/-- Taking bytes with another queue and output port makes the same moves and appends the same events. -/
theorem takeBytes_with_evq_out (xs : Bytes) (s : State) : ∃ es, (takeBytes xs s).evq = s.evq ++ es ∧
    ∀ (q : List Event) (o : Option Output),
      takeBytes xs { s with evq := q, out := o } = { takeBytes xs s with evq := q ++ es, out := o } := by
  obtain ⟨es, hevq, hcongr⟩ := takeBytes_appends xs s
  refine ⟨es, hevq, fun q o => (hcongr q s.ops o).trans ?_⟩
  rw [← takeBytes_ops xs s]

/-- One operation is the bytes it takes, with its pop moving the head of the queue to the observation. -/
theorem nextOr_exec_eq_takeBytes (i : Instr) (s : State) (h : i ≠ .reset) :
    ∃ q o, nextOr s (exec i s) = { takeBytes (takenBy s i) s with evq := q, out := o } ∧
      ((outputOf i s).bind Output.popped?).toList ++ q = (takeBytes (takenBy s i) s).evq := by
  rcases nextOr_exec_cases i s with ⟨⟨o, hnext⟩, hpop, -, htaken⟩ | ⟨b, -, -, hnext, hpop, -, htaken⟩ |
    ⟨ev, rest, -, hq, hnext, hpop, -, htaken⟩ | ⟨hreset, -⟩
  · exact ⟨s.evq, o, by simp [hnext, htaken], by simp [hpop, htaken]⟩
  · exact ⟨(takeByte b s).evq, none, by simp [hnext, htaken], by simp [hpop, htaken]⟩
  · exact ⟨rest, some (.popped ev), by simp [hnext, htaken], by simp [hpop, htaken, hq]⟩
  · exact absurd hreset h

/-- A run without `RESET` leaves the reader as taking its bytes does, but for the queue and the output port, and the
events popped and then those still queued are the events taking the bytes leaves in the queue. -/
theorem after_eq_takeBytes (is : List Instr) (s : State) (h : Instr.reset ∉ is) :
    ∃ q o, after is s = { takeBytes (taken is s) s with evq := q, out := o } ∧
      observed is s ++ q = (takeBytes (taken is s) s).evq := by
  induction is generalizing s with
  | nil => exact ⟨s.evq, s.out, rfl, rfl⟩
  | cons i is ih =>
    rw [List.mem_cons, not_or] at h
    obtain ⟨hi, his⟩ := h
    obtain ⟨q₀, o₀, hnext, hpopped⟩ := nextOr_exec_eq_takeBytes i s (Ne.symm hi)
    obtain ⟨q, o, hafter, hobs⟩ := ih (nextOr s (exec i s)) his
    obtain ⟨es, hevq, hwith⟩ := takeBytes_with_evq_out (taken is (nextOr s (exec i s))) (takeBytes (takenBy s i) s)
    have hrest := congrArg (takeBytes (taken is (nextOr s (exec i s)))) hnext
    rw [hwith] at hrest
    rw [hrest] at hafter hobs
    refine ⟨q, o, ?_, ?_⟩
    · rw [after_cons, taken_cons, takeBytes_append, hafter]
    · rw [observed_cons, taken_cons, takeBytes_append, hevq, List.append_assoc, hobs, ← hpopped, List.append_assoc]

/-! ### A reader that is not ready -/

/-- Without a pop or a `RESET` a reader that is not ready keeps all but its output port, and nothing is handed over or
emitted. -/
theorem held_run (is : List Instr) (s : State) (h : s.inReady = false) (hpop : Instr.popEvent ∉ is)
    (hreset : Instr.reset ∉ is) :
    (∃ o, after is s = { s with out := o }) ∧ observed is s = [] ∧ emitted is s = [] := by
  induction is generalizing s with
  | nil => exact ⟨⟨s.out, rfl⟩, rfl, rfl⟩
  | cons i is ih =>
    rw [List.mem_cons, not_or] at hpop hreset
    obtain ⟨hpop, hpops⟩ := hpop
    obtain ⟨hreset, hresets⟩ := hreset
    rcases nextOr_exec_cases i s with ⟨⟨o, hnext⟩, hquiet, hev, -⟩ | ⟨b, -, hready, -⟩ | ⟨ev, rest, hi, -⟩ | ⟨hi, -⟩
    · obtain ⟨⟨o', hafter⟩, hobs, hemit⟩ := ih { s with out := o } h hpops hresets
      exact ⟨⟨o', by rw [after_cons, hnext, hafter]⟩, by simp [hnext, hquiet, hobs], by simp [hnext, hev, hemit]⟩
    · rw [h] at hready; cases hready
    · exact absurd hi.symm hpop
    · exact absurd hi.symm hreset

end Sys2Proof.Machine
end

section
/-! The statements on runs of single operations. -/

namespace Sys2Proof.Machine

/-- Settles O48: each operation hands over and leaves queued what was queued and what it emits. -/
theorem eventsLeaveInEmissionOrder : Obligations.EventsLeaveInEmissionOrder := by
  intro is s h
  induction is generalizing s with
  | nil => simp
  | cons i is ih =>
    rw [List.mem_cons, not_or] at h
    obtain ⟨hi, his⟩ := h
    rw [observed_cons, after_cons, emitted_cons, List.append_assoc, ih _ his, ← List.append_assoc,
      popped_append_evq i s (Ne.symm hi), List.append_assoc]

/-- Settles O53: every operation but a pop and `RESET` holds or leaves the reader alone. -/
theorem withoutPopsTheProducerStaysHeld : Obligations.WithoutPopsTheProducerStaysHeld := by
  intro is s h hpop hreset
  obtain ⟨⟨o, hafter⟩, hobs, hemit⟩ := held_run is s h hpop hreset
  rw [hafter]
  exact ⟨h, rfl, rfl, rfl, hobs, hemit⟩

end Sys2Proof.Machine
end

section
/-! SUPPORT. `PUSH_STR` among the turns of the other agents (R65): its operations, the bytes it takes, a ready reader
that takes a line without a pause, and a consumer that makes room before each byte. -/

namespace Sys2Proof.Machine

/-- Its operations are pushes and those of the other agents. -/
theorem pushStr_mem (i : Instr) (ts : List Turn) (bs : Bytes) (s : State) (h : i ∈ (pushStr ts bs s).1) :
    (∃ b, i = .pushByte b) ∨ Turn.other i ∈ ts := by
  induction ts generalizing bs s with
  | nil => simp at h
  | cons t ts ih =>
    cases t with
    | other j =>
      rw [pushStr_other] at h
      rcases List.mem_cons.mp h with rfl | h
      · exact .inr List.mem_cons_self
      · exact (ih _ _ h).imp_right (List.mem_cons_of_mem _)
    | own =>
      cases bs with
      | nil =>
        rw [pushStr_done] at h
        exact (ih _ _ h).imp_right (List.mem_cons_of_mem _)
      | cons b bs =>
        rcases List.mem_cons.mp h with rfl | h
        · exact .inl ⟨b, rfl⟩
        · exact (ih _ _ h).imp_right (List.mem_cons_of_mem _)

/-- The bytes taken and then those left are the string, when no other agent pushes. -/
theorem taken_pushStr (ts : List Turn) (bs : Bytes) (s : State) (h : ∀ b, Turn.other (.pushByte b) ∉ ts) :
    taken (pushStr ts bs s).1 s ++ (pushStr ts bs s).2 = bs := by
  induction ts generalizing bs s with
  | nil => simp
  | cons t ts ih =>
    have hts : ∀ b, Turn.other (.pushByte b) ∉ ts := fun b hb => h b (List.mem_cons_of_mem t hb)
    cases t with
    | other i =>
      have hi : takenBy s i = [] := takenBy_of_not_push i s fun b hb => h b (by rw [hb]; exact List.mem_cons_self)
      rw [pushStr_other, taken_cons, hi]
      exact ih bs _ hts
    | own =>
      cases bs with
      | nil => exact ih [] s hts
      | cons b bs =>
        cases hr : s.inReady with
        | true =>
          rw [pushStr_ready ts b bs s hr, taken_cons, exec_pushByte_ready b s hr]
          simpa [takenBy, hr] using ih bs { takeByte b s with out := none } hts
        | false =>
          rw [pushStr_held ts b bs s hr, taken_cons, exec_pushByte_held b s hr]
          simpa [takenBy, hr] using ih (b :: bs) { s with out := some (.held .pushNotReady) } hts

/-! ### A line without a pause -/

theorem takeBytes_with_out (xs : Bytes) (s : State) (o : Option Output) :
    takeBytes xs { s with out := o } = { takeBytes xs s with out := o } := by
  obtain ⟨es, hevq, hwith⟩ := takeBytes_with_evq_out xs s
  exact (hwith s.evq o).trans (by rw [← hevq])

/-- A ready reader takes a string turn by turn when no byte before the last emits an event. -/
theorem pushStr_without_pause (bs : Bytes) (b : Byte) (s : State) (hready : s.inReady = true)
    (hquiet : (takeBytes bs s).evq = s.evq) :
    (pushStr (List.replicate (bs ++ [b]).length .own) (bs ++ [b]) s).2 = [] ∧
      after (pushStr (List.replicate (bs ++ [b]).length .own) (bs ++ [b]) s).1 s =
        { takeBytes (bs ++ [b]) s with out := none } := by
  induction bs generalizing s with
  | nil => simp [pushStr_ready, hready, exec_pushByte_ready]
  | cons a bs ih =>
    obtain ⟨es, hevq, -⟩ := takeBytes_with_evq_out bs (takeByte a s)
    rw [takeBytes_cons, hevq, takeByte_evq, List.append_assoc, List.append_right_eq_self,
      List.append_eq_nil_iff] at hquiet
    obtain ⟨hemit, rfl⟩ := hquiet
    have hsame : (takeByte a s).evq = s.evq := by rw [takeByte_evq, hemit, List.append_nil]
    have hready' : ({ takeByte a s with out := none } : State).inReady = true := by
      rw [inReady_iff, takeByte_cfg, hsame]
      exact (inReady_iff s).mp hready
    obtain ⟨hdone, hafter⟩ := ih { takeByte a s with out := none } hready' <| by
      rw [takeBytes_with_out]
      exact hevq.trans (List.append_nil _)
    rw [takeBytes_with_out] at hafter
    rw [List.cons_append, List.length_cons, List.replicate_succ, pushStr_ready _ a _ s hready, after_cons,
      exec_pushByte_ready a s hready]
    exact ⟨hdone, hafter⟩

/-- Before its LF a line whose body fits emits nothing. -/
theorem takeBytes_open_line (body : Bytes) (s : State) (hf : s.frState = .idle) (hs : s.body = [])
    (hlf : lfByte ∉ body) (hlen : body.length ≤ s.cfg.bodyMax) :
    takeBytes (cByte :: semiByte :: body) s = { s with frState := .inBody, body := body } := by
  rw [takeBytes_cons, takeByte_idle_c s hf, takeBytes_cons, takeByte_gotC_semi _ rfl,
    takeBytes_body body _ rfl hlf (by simpa [hs] using hlen)]
  simp [hs]

/-! ### A consumer that makes room -/

/-- The pops of another agent before the next turn empty the queue. -/
theorem after_replicate_popEvent (n : Nat) (s : State) (h : s.evq.length ≤ n) :
    (after (List.replicate n .popEvent) s).evq = [] ∧ (after (List.replicate n .popEvent) s).cfg = s.cfg := by
  induction n generalizing s with
  | zero => exact ⟨List.length_eq_zero_iff.mp (Nat.le_zero.mp h), rfl⟩
  | succ n ih =>
    have hlen : (nextOr s (exec .popEvent s)).evq.length ≤ n := by
      rw [nextOr_popEvent_evq, List.length_tail]
      omega
    obtain ⟨hevq, hcfg⟩ := ih _ hlen
    rw [List.replicate_succ, after_cons]
    exact ⟨hevq, hcfg.trans (nextOr_exec_cfg .popEvent s)⟩

theorem pushStr_replicate_popEvent (n : Nat) (bs : Bytes) (s : State) :
    pushStr (List.replicate n (.other .popEvent)) bs s = (List.replicate n .popEvent, bs) := by
  induction n generalizing s with
  | zero => exact pushStr_no_turn bs s
  | succ n ih => rw [List.replicate_succ, pushStr_other, ih]; rfl

/-- Two pops before each byte keep the reader ready for it, for a byte emits at most two events. -/
theorem pushStr_two_pops_each (bs : Bytes) (s : State) (hdepth : 2 ≤ s.cfg.evqDepth) (hlen : s.evq.length ≤ 2) :
    (pushStr (List.replicate bs.length [.other .popEvent, .other .popEvent, .own]).flatten bs s).2 = [] := by
  induction bs generalizing s with
  | nil => simp
  | cons b bs ih =>
    obtain ⟨hevq, hcfg⟩ := after_replicate_popEvent 2 s hlen
    have hready : (after (List.replicate 2 .popEvent) s).inReady = true := by
      rw [inReady_iff, hevq, hcfg]
      exact hdepth
    have hturns : (List.replicate (b :: bs).length [Turn.other .popEvent, .other .popEvent, .own]).flatten =
        List.replicate 2 (.other .popEvent) ++
          .own :: (List.replicate bs.length [.other .popEvent, .other .popEvent, .own]).flatten := rfl
    rw [hturns, pushStr_append, pushStr_replicate_popEvent, pushStr_ready _ b bs _ hready]
    refine ih _ ?_ ?_
    · rw [takeByte_cfg, hcfg]
      exact hdepth
    · rw [takeByte_evq, hevq]
      exact emittedBy_length_le_two b _

end Sys2Proof.Machine
end

section
/-! The statements on `PUSH_STR`. -/

namespace Sys2Proof.Machine

/-- Settles O55: a turn takes the next byte or leaves it to be offered again. -/
theorem pushStrTakesEveryByteOnce : Obligations.PushStrTakesEveryByteOnce :=
  taken_pushStr

/-- Settles O56: the run and the feed are both the string's bytes taken one after another, with the pops moving events
from the queue to the observation. -/
theorem pushStrDoesNotDependOnTheSchedule : Obligations.PushStrDoesNotDependOnTheSchedule := by
  intro ts bs s hok hothers hdone
  have hpush (b : Byte) : Turn.other (.pushByte b) ∉ ts := fun hb => by simpa [Instr.isCodec] using hothers _ hb
  have hreset : Instr.reset ∉ (pushStr ts bs s).1 := fun hmem => by
    rcases pushStr_mem _ ts bs s hmem with ⟨b, hb⟩ | hturn
    · cases hb
    · simpa [Instr.isCodec] using hothers _ hturn
  have htaken : taken (pushStr ts bs s).1 s = bs := by simpa [hdone] using taken_pushStr ts bs s hpush
  obtain ⟨-, hdepth, -⟩ := (config_ok_iff s.cfg).mp hok
  obtain ⟨q, o, hafter, hobs⟩ := after_eq_takeBytes _ s hreset
  obtain ⟨popped, q', o', hfeed, -⟩ := feed_eq_takeBytes bs s hdepth
  rw [htaken] at hafter hobs
  rw [hafter, hfeed, feedEvents_eq_takeBytes bs s hok]
  exact ⟨hobs, rfl, rfl⟩

/-- Settles O57: the first pops empty the queue, and two pops then make room for each byte. -/
theorem pushStrEndsWhenTheConsumerPops : Obligations.PushStrEndsWhenTheConsumerPops := by
  intro bs s hok
  obtain ⟨-, hdepth, -⟩ := (config_ok_iff s.cfg).mp hok
  obtain ⟨hevq, hcfg⟩ := after_replicate_popEvent s.evq.length s le_rfl
  rw [pushStr_append, pushStr_replicate_popEvent]
  exact pushStr_two_pops_each bs _ (by rw [hcfg]; exact hdepth) (by rw [hevq]; exact Nat.zero_le _)

/-- Settles O50: no byte of the frame before its LF emits an event, and the LF the word and payload. -/
theorem sentFrameIsReceived : Obligations.SentFrameIsReceived := by
  intro cid rcp payload s hfits hbody hsemi hlf hf hs hready
  refine ⟨_, _, outputOf_cwEncode cid rcp s, outputOf_frameEncode_fits cid rcp payload s hfits, ?_⟩
  have hquiet : (takeBytes (cByte :: semiByte :: (hex4 (cwPack cid rcp) ++ [semiByte] ++ payload ++ [crByte])) s).evq =
      s.evq := by
    rw [takeBytes_open_line _ s hf hs]
    · simp [hlf, hex4_no_lf, show lfByte ≠ semiByte by decide, show lfByte ≠ crByte by decide]
    · simp; omega
  have hsent := pushStr_without_pause _ lfByte s hready hquiet
  have hframe := takeBytes_frameBytes cid rcp payload s hf hs hsemi hlf hbody
  rw [frameBytes_eq] at hframe ⊢
  simpa only [List.cons_append, hframe] using hsent

end Sys2Proof.Machine
end

section
/-! SUPPORT. `POP_ALL` among the turns of the other agents (R65): what it does alone, which of its turns pop, and when
it ends. -/

namespace Sys2Proof.Machine

/-- Alone it pops the queue to its end and stops. -/
theorem popAll_alone (q : List Event) (s : State) (hq : s.evq = q) :
    ∃ is, popAll (List.replicate (q.length + 1) .own) s = (is, true) ∧ observed is s = q ∧
      ∃ o, after is s = { s with evq := [], out := o } := by
  induction q generalizing s with
  | nil => exact ⟨[], popAll_own_nil [] s hq, rfl, s.out, by rw [← hq]; rfl⟩
  | cons ev rest ih =>
    obtain ⟨is, hpop, hobs, o, hafter⟩ := ih { s with evq := rest, out := some (.popped ev) } rfl
    refine ⟨.popEvent :: is, ?_, ?_, o, ?_⟩
    · rw [List.length_cons, List.replicate_succ, popAll_own_cons _ s ev rest hq, hpop]
    · rw [observed_cons, outputOf_popEvent_cons s ev rest hq, exec_popEvent_cons s ev rest hq, nextOr_next, hobs]
      rfl
    · rw [after_cons, exec_popEvent_cons s ev rest hq, nextOr_next, hafter]

theorem count_own_other (i : Instr) (ts : List Turn) : (Turn.other i :: ts).count .own = ts.count .own :=
  List.count_cons_of_ne Turn.noConfusion

/-- Until its end, each of its turns pops, when no other agent pops. -/
theorem popAll_count (ts : List Turn) (s : State) (h : Turn.other .popEvent ∉ ts) (hend : (popAll ts s).2 = false) :
    (popAll ts s).1.count .popEvent = ts.count .own := by
  induction ts generalizing s with
  | nil => rfl
  | cons t ts ih =>
    rw [List.mem_cons, not_or] at h
    obtain ⟨ht, hts⟩ := h
    cases t with
    | other i =>
      have hi : i ≠ .popEvent := fun hi => ht (by rw [hi])
      rw [popAll_other, List.count_cons_of_ne hi, ih _ hts hend, count_own_other]
    | own =>
      cases hq : s.evq with
      | nil => rw [popAll_own_nil ts s hq] at hend; cases hend
      | cons ev rest =>
        rw [popAll_own_cons ts s ev rest hq] at hend ⊢
        rw [List.count_cons_self, ih _ hts hend, List.count_cons_self]

/-- Each of its pops finds an event, when no other agent pops. -/
theorem popAll_pop_evq (ts : List Turn) (s : State) (h : Turn.other .popEvent ∉ ts) (done rest : List Instr)
    (hops : (popAll ts s).1 = done ++ .popEvent :: rest) : (after done s).evq ≠ [] := by
  induction ts generalizing s done with
  | nil => simp at hops
  | cons t ts ih =>
    rw [List.mem_cons, not_or] at h
    obtain ⟨ht, hts⟩ := h
    cases t with
    | other i =>
      rw [popAll_other] at hops
      cases done with
      | nil => exact absurd (congrArg Turn.other (List.cons.inj hops).1.symm) ht
      | cons j done =>
        obtain ⟨rfl, htail⟩ := List.cons.inj hops
        exact ih _ hts done htail
    | own =>
      cases hq : s.evq with
      | nil => rw [popAll_own_nil ts s hq] at hops; simp at hops
      | cons ev queued =>
        rw [popAll_own_cons ts s ev queued hq] at hops
        cases done with
        | nil => simp [hq]
        | cons j done =>
          obtain ⟨rfl, htail⟩ := List.cons.inj hops
          rw [after_cons, exec_popEvent_cons s ev queued hq]
          exact ih _ hts done htail

/-- It ends when it has more turns than events are queued, for without a push the queue only shrinks. -/
theorem popAll_ends (ts : List Turn) (s : State) (h : ∀ b, Turn.other (.pushByte b) ∉ ts)
    (hcount : s.evq.length < ts.count .own) : (popAll ts s).2 = true := by
  induction ts generalizing s with
  | nil => cases hcount
  | cons t ts ih =>
    have hts : ∀ b, Turn.other (.pushByte b) ∉ ts := fun b hb => h b (List.mem_cons_of_mem t hb)
    cases t with
    | other i =>
      have hi : ∀ b, i ≠ .pushByte b := fun b hb => h b (by rw [hb]; exact List.mem_cons_self)
      rw [count_own_other] at hcount
      rw [popAll_other]
      exact ih _ hts ((nextOr_exec_evq_length_le i s hi).trans_lt hcount)
    | own =>
      cases hq : s.evq with
      | nil => rw [popAll_own_nil ts s hq]
      | cons ev rest =>
        rw [hq, List.length_cons, List.count_cons_self] at hcount
        rw [popAll_own_cons ts s ev rest hq]
        exact ih _ hts (Nat.lt_of_succ_lt_succ hcount)

end Sys2Proof.Machine
end

section
/-! The statements on `POP_ALL`. -/

namespace Sys2Proof.Machine

/-- Settles O54: alone it pops the queue to its end, and an empty queue leaves two slots free. -/
theorem popAllDrainsTheQueue : Obligations.PopAllDrainsTheQueue := by
  intro s hok
  obtain ⟨-, hdepth, -⟩ := (config_ok_iff s.cfg).mp hok
  obtain ⟨is, hpop, hobs, o, hafter⟩ := popAll_alone s.evq s rfl
  refine ⟨is, hpop, hobs, ?_⟩
  rw [hafter]
  exact ⟨rfl, (inReady_iff _).mpr hdepth, rfl, rfl⟩

/-- Settles O58: its end is on an empty queue, and before it each turn pops a queued event. -/
theorem popAllPopsWhileAnEventIsQueued : Obligations.PopAllPopsWhileAnEventIsQueued :=
  fun ts s => ⟨popAll_end_evq ts s, fun h => ⟨popAll_count ts s h, popAll_pop_evq ts s h⟩⟩

/-- Settles O59: its operations reset nothing, and at its end no event is still queued. -/
theorem popAllHandsOverLaterEventsToo : Obligations.PopAllHandsOverLaterEventsToo := by
  intro ts s hothers hend
  have hreset : Instr.reset ∉ (popAll ts s).1 := fun hmem => by
    rcases popAll_mem _ ts s hmem with hpop | hturn
    · cases hpop
    · exact (hothers _ hturn).2 rfl
  simpa [popAll_end_evq ts s hend] using eventsLeaveInEmissionOrder _ s hreset

/-- Settles O60: a turn on an empty queue ends it, and each turn before shortens the queue. -/
theorem popAllEndsWhenNothingIsPushed : Obligations.PopAllEndsWhenNothingIsPushed :=
  popAll_ends

end Sys2Proof.Machine
end

section
/-! SUPPORT. The reader and the reference scan side by side (R122, R123): what the reader makes of one line, whether it
fits or overflows, is what the scan makes of it in one call. -/

namespace Sys2Proof.Machine

/-! ### The cut at LF -/

theorem eq_of_cutAtLf_eq_some (xs pre rest : Bytes) (h : cutAtLf xs = some (pre, rest)) :
    xs = pre ++ lfByte :: rest ∧ lfByte ∉ pre := by
  induction xs generalizing pre with
  | nil => cases h
  | cons b bs ih =>
    rw [cutAtLf] at h
    split_ifs at h with hb
    · cases h
      exact ⟨by rw [hb]; rfl, List.not_mem_nil⟩
    · split at h
      next p r hcut =>
        cases h
        obtain ⟨rfl, hp⟩ := ih p hcut
        exact ⟨rfl, by simp [hp, Ne.symm hb]⟩
      next => cases h

theorem not_mem_of_cutAtLf_eq_none (xs : Bytes) (h : cutAtLf xs = none) : lfByte ∉ xs := by
  intro hmem
  obtain ⟨pre, rest, rfl, hpre⟩ := List.eq_append_cons_of_mem hmem
  rw [cutAtLf_append_lf pre rest hpre] at h
  cases h

/-! ### A line that overflows -/

/-- The rest of an overflowed line changes nothing (R117). -/
theorem takeBytes_discard (xs : Bytes) (s : State) (hf : s.frState = .discard) (hlf : lfByte ∉ xs) :
    takeBytes xs s = s := by
  induction xs with
  | nil => rfl
  | cons b bs ih =>
    rw [List.mem_cons, not_or] at hlf
    obtain ⟨hb, hbs⟩ := hlf
    rw [takeBytes_cons, takeByte_discard_other b s hf (Ne.symm hb), ih hbs]

/-- A body that does not fit is one overflow, at its first byte without room, and the rest is dropped (R115). -/
theorem takeBytes_body_overflow (xs : Bytes) (s : State) (hf : s.frState = .inBody) (hlf : lfByte ∉ xs)
    (hbody : s.body.length ≤ s.cfg.bodyMax) (hlen : s.cfg.bodyMax < s.body.length + xs.length) :
    takeBytes xs s =
      { s with frState := .discard, body := [], evq := s.evq ++ [.frameError .overflow] } := by
  induction xs generalizing s with
  | nil => simp at hlen; omega
  | cons b bs ih =>
    rw [List.mem_cons, not_or] at hlf
    obtain ⟨hb, hbs⟩ := hlf
    rw [takeBytes_cons]
    rcases Nat.lt_or_ge s.body.length s.cfg.bodyMax with hroom | hfull
    · rw [takeByte_inBody_fits b s hf (Ne.symm hb) hroom]
      exact ih _ hf hbs (by simpa using hroom) (by simp at hlen ⊢; omega)
    · rw [takeByte_inBody_overflow b s hf (Ne.symm hb) hfull]
      exact takeBytes_discard bs _ rfl hbs

theorem takeBytes_open_line_overflow (body : Bytes) (s : State) (hf : s.frState = .idle) (hs : s.body = [])
    (hlf : lfByte ∉ body) (hlen : s.cfg.bodyMax < body.length) :
    takeBytes (cByte :: semiByte :: body) s =
      { s with frState := .discard, evq := s.evq ++ [.frameError .overflow] } := by
  rw [takeBytes_cons, takeByte_idle_c s hf, takeBytes_cons, takeByte_gotC_semi _ rfl,
    takeBytes_body_overflow body _ rfl hlf (by simp [hs]) (by simpa [hs] using hlen), hs]

/-! ### What the reader makes of the start of its input -/

/-- The event of a whole text-frame line for a reader whose body buffer holds `m` bytes. -/
def lineEvent (m : Nat) (body : Bytes) : Event :=
  if body.length ≤ m then classify body else .frameError .overflow

/-- A whole line, long or not, gives its one event and leads back to the start of a line. -/
theorem takeBytes_whole_line (body : Bytes) (s : State) (hf : s.frState = .idle) (hs : s.body = [])
    (hlf : lfByte ∉ body) :
    takeBytes (cByte :: semiByte :: (body ++ [lfByte])) s = s.emit (lineEvent s.cfg.bodyMax body) := by
  rcases Nat.lt_or_ge s.cfg.bodyMax body.length with hlong | hfits
  · rw [← List.cons_append, ← List.cons_append, takeBytes_append, takeBytes_open_line_overflow body s hf hs hlf hlong,
      takeBytes_cons, takeByte_discard_lf _ rfl, lineEvent, if_neg (Nat.not_le.mpr hlong), takeBytes_nil, ← hf]
    rfl
  · rw [takeBytes_line body s hf hs hlf hfits, lineEvent, if_pos hfits]
    rfl

/-- The events of a line without its LF: an overflow is reported at once (R123). -/
theorem takeBytes_unfinished_line_evq (body : Bytes) (s : State) (hf : s.frState = .idle) (hs : s.body = [])
    (hlf : lfByte ∉ body) :
    (takeBytes (cByte :: semiByte :: body) s).evq =
      s.evq ++ if body.length ≤ s.cfg.bodyMax then [] else [.frameError .overflow] := by
  rcases Nat.lt_or_ge s.cfg.bodyMax body.length with hlong | hfits
  · rw [takeBytes_open_line_overflow body s hf hs hlf hlong, if_neg (Nat.not_le.mpr hlong)]
  · rw [takeBytes_open_line body s hf hs hlf hfits, if_pos hfits, List.append_nil]

/-- A `'c'` that begins no text frame is junk, and the byte after it stands at the start of a line (R114). -/
theorem takeBytes_stray_c (d : Byte) (r : Bytes) (s : State) (hf : s.frState = .idle) (hd : d ≠ semiByte) :
    takeBytes (cByte :: d :: r) s = takeBytes (d :: r) (s.emit (.junk cByte)) := by
  rw [takeBytes_cons, takeByte_idle_c s hf, takeBytes_cons, takeByte_gotC_restart d _ rfl hd, takeBytes_cons,
    takeByte_idle d (s.emit (.junk cByte)) hf, ← hf]
  rfl

/-- The event of a byte at the start of a line, other than a `'c'` (R113, R122). -/
def lineStartEvent (b : Byte) : Event :=
  if b = ackByte then .ack else if b = nackByte then .nack else .junk b

theorem takeByte_line_start (b : Byte) (s : State) (hf : s.frState = .idle) (hb : b ≠ cByte) :
    takeByte b s = s.emit (lineStartEvent b) := by
  rw [takeByte_idle b s hf, idleStep, lineStartEvent]
  split_ifs <;> rfl

/-! ### The bounded scan, case by case -/

@[simp] theorem cByte_ne_ackByte : cByte ≠ ackByte := by decide
@[simp] theorem cByte_ne_nackByte : cByte ≠ nackByte := by decide

theorem scanMaxFuel_nil (m n : Nat) : scanMaxFuel m n [] = [] := by
  cases n <;> rfl

theorem scanMaxFuel_line_start (m n : Nat) (b : Byte) (r : Bytes) (hb : b ≠ cByte) :
    scanMaxFuel m (n + 1) (b :: r) = lineStartEvent b :: scanMaxFuel m n r := by
  cases r <;> simp only [scanMaxFuel, lineStartEvent, if_neg hb] <;> split_ifs <;> rfl

theorem scanMaxFuel_last_c (m n : Nat) : scanMaxFuel m (n + 1) [cByte] = [] := rfl

theorem scanMaxFuel_stray_c (m n : Nat) (d : Byte) (r : Bytes) (hd : d ≠ semiByte) :
    scanMaxFuel m (n + 1) (cByte :: d :: r) = .junk cByte :: scanMaxFuel m n (d :: r) := by
  simp [scanMaxFuel, hd]

theorem scanMaxFuel_whole_line (m n : Nat) (r body rest : Bytes) (hcut : cutAtLf r = some (body, rest)) :
    scanMaxFuel m (n + 1) (cByte :: semiByte :: r) = lineEvent m body :: scanMaxFuel m n rest := by
  simp [scanMaxFuel, lineEvent, hcut]

theorem scanMaxFuel_unfinished_line (m n : Nat) (r : Bytes) (hcut : cutAtLf r = none) :
    scanMaxFuel m (n + 1) (cByte :: semiByte :: r) = if r.length ≤ m then [] else [.frameError .overflow] := by
  simp [scanMaxFuel, hcut]

/-! ### The reader against the scans -/

/-- At the start of a line, the events the reader emits for the rest of its input are those of the bounded scan. -/
theorem takeBytes_evq_eq_scanMax (n : Nat) (xs : Bytes) (s : State) (hn : xs.length ≤ n) (hf : s.frState = .idle)
    (hs : s.body = []) : (takeBytes xs s).evq = s.evq ++ scanMaxFuel s.cfg.bodyMax n xs := by
  induction n generalizing xs s with
  | zero =>
    obtain rfl : xs = [] := List.length_eq_zero_iff.mp (Nat.le_zero.mp hn)
    rw [takeBytes_nil, scanMaxFuel_nil, List.append_nil]
  | succ n ih =>
    have hemit (ev : Event) (ys : Bytes) (hys : ys.length ≤ n) :
        (takeBytes ys (s.emit ev)).evq = s.evq ++ ev :: scanMaxFuel s.cfg.bodyMax n ys := by
      rw [ih ys (s.emit ev) hys hf hs, emit_evq, emit_cfg, List.append_assoc, List.singleton_append]
    rcases xs with _ | ⟨b, r⟩
    · rw [takeBytes_nil, scanMaxFuel_nil, List.append_nil]
    have hr : r.length ≤ n := Nat.le_of_succ_le_succ hn
    by_cases hb : b = cByte
    case neg =>
      rw [takeBytes_cons, takeByte_line_start b s hf hb, hemit _ r hr, scanMaxFuel_line_start _ _ b r hb]
    subst hb
    rcases r with _ | ⟨d, r⟩
    · rw [takeBytes_cons, takeByte_idle_c s hf, takeBytes_nil, scanMaxFuel_last_c, List.append_nil]
    by_cases hd : d = semiByte
    case neg =>
      rw [takeBytes_stray_c d r s hf hd, hemit _ _ hr, scanMaxFuel_stray_c _ _ d r hd]
    subst hd
    rcases hcut : cutAtLf r with _ | ⟨body, rest⟩
    · rw [takeBytes_unfinished_line_evq r s hf hs (not_mem_of_cutAtLf_eq_none r hcut),
        scanMaxFuel_unfinished_line _ _ r hcut]
    · obtain ⟨rfl, hlf⟩ := eq_of_cutAtLf_eq_some r body rest hcut
      have hsplit : cByte :: semiByte :: (body ++ lfByte :: rest) =
          (cByte :: semiByte :: (body ++ [lfByte])) ++ rest := by simp
      have hrest : rest.length ≤ n := by simp at hr; omega
      rw [scanMaxFuel_whole_line _ _ _ body rest hcut, hsplit, takeBytes_append, takeBytes_whole_line body s hf hs hlf,
        hemit _ rest hrest]

/-- Where every text-frame body fits, the bound changes nothing. -/
theorem scanMaxFuel_eq_scanFuel (m n : Nat) (xs : Bytes) (h : ∀ body ∈ bodiesFuel n xs, body.length ≤ m) :
    scanMaxFuel m n xs = scanFuel n xs := by
  induction n generalizing xs with
  | zero => rfl
  | succ n ih =>
    have hnil : scanMaxFuel m n [] = scanFuel n [] := by cases n <;> rfl
    match xs with
    | [] => rfl
    | [b] => simp only [scanMaxFuel, scanFuel, hnil]
    | b :: d :: r =>
      by_cases hb : b = cByte
      case neg =>
        simp only [bodiesFuel, if_neg hb] at h
        simp only [scanMaxFuel, scanFuel, if_neg hb, ih _ h]
      subst hb
      by_cases hd : d = semiByte
      case neg =>
        simp only [bodiesFuel, if_true, if_neg hd] at h
        rw [scanMaxFuel_stray_c m n d r hd, ih _ h]
        simp [scanFuel, hd]
      subst hd
      rcases hcut : cutAtLf r with _ | ⟨body, rest⟩
      · simp only [bodiesFuel, if_true, hcut, List.forall_mem_singleton] at h
        rw [scanMaxFuel_unfinished_line m n r hcut, if_pos h]
        simp [scanFuel, hcut]
      · simp only [bodiesFuel, if_true, hcut, List.forall_mem_cons] at h
        obtain ⟨hbody, hbodies⟩ := h
        rw [scanMaxFuel_whole_line m n r body rest hcut, lineEvent, if_pos hbody, ih rest hbodies]
        simp [scanFuel, hcut]

end Sys2Proof.Machine
end

section
/-! The statement on the reference scan. -/

namespace Sys2Proof.Machine

/-- Settles O49: the events fed are those the bytes emit, which the bounded scan gives line by line, and the bound
matters only to a body that is longer. -/
theorem feedEmitsTheReferenceScan : Obligations.FeedEmitsTheReferenceScan := by
  intro c xs hc
  have hmax : feedEvents xs (State.resetWith c) = scanMax c.bodyMax xs := by
    rw [feedEvents_eq_takeBytes xs _ hc, takeBytes_evq_eq_scanMax xs.length xs _ le_rfl rfl rfl]
    rfl
  exact ⟨fun hfits => hmax.trans (scanMaxFuel_eq_scanFuel c.bodyMax xs.length xs hfits), hmax⟩

end Sys2Proof.Machine
end
